-- ==== Sys2Proof/Word.lean ====
section
/-! DEFINITION. The two word types of `varint_core`: the byte of the wire format and of the 8-bit registers, and the
64-bit value of `VALUE_W` (spec/00_scope.md R7, R10, R11). Everything is unsigned. -/

namespace Sys2Proof

/-- `u8` of spec/00_scope.md R11: a wire byte, a command word, an 8-bit register. -/
abbrev Byte := BitVec 8

/-- `u64` of spec/00_scope.md R7 and R11: a value, a 64-bit register. -/
abbrev Word := BitVec 64

end Sys2Proof
end

