-- ==== Sys2Proof/Syntax.lean ====
section
/-! DEFINITION. The command set: one constructor per row of spec/opcode_table.json (spec/30_encoding.md R81). "The
command carries no operand and no immediate" (R80), so no constructor has a field. -/

namespace Sys2Proof

/-- The four commands; they "are the whole command set" (spec/60_exceptions.md R197). -/
inductive Instr where
  /-- SIZE, 0x01: the encoded size of ARG (spec/40_size_calc.md R101). -/
  | size
  /-- ENC, 0x02: encode ARG into OBUF (spec/41_encoder.md R121). -/
  | enc
  /-- DECB, 0x03: decode from IBUF (spec/42_decoder.md R142). -/
  | decb
  /-- DECS, 0x04: decode from the stream source (spec/42_decoder.md R152). -/
  | decs
  deriving DecidableEq, Repr

end Sys2Proof
end

