-- ==== Sys2Proof/WellFormed.lean ====
section
/-! DEFINITION. Well-formedness: of an instruction (it has no operand that could be out of range), of a command word
(spec/30_encoding.md R80, R83) and of a wire-format byte sequence (spec/30_encoding.md R75). -/

namespace Sys2Proof

/-- An instruction is well formed: CMD8 has "no operand and no immediate" (spec/30_encoding.md R80), so no instruction
is ill formed. Written per constructor, so that a new one must be judged. -/
def Instr.wf : Instr → Bool
  | .size => true
  | .enc => true
  | .decb => true
  | .decs => true

/-- RSV = 0: "reserved, must be 0000" (spec/30_encoding.md R80). -/
def reservedOk (c : Byte) : Bool := c.extractLsb' 4 4 == 0#4

/-- OP names an operation: 0x1, 0x2, 0x3 or 0x4 (spec/10_state.md R24). -/
def opOk (c : Byte) : Bool := 1#4 ≤ c.extractLsb' 0 4 && c.extractLsb' 0 4 ≤ 4#4

/-- A command word is well formed when both its fields are legal (spec/30_encoding.md R80, R83). -/
def cmdWordOk (c : Byte) : Bool := reservedOk c && opOk c

/-- Condition 1 of spec/30_encoding.md R75: one to ten bytes. -/
def wireLengthOk (bs : List Byte) : Bool := 1 ≤ bs.length && bs.length ≤ 10

/-- Condition 2 of spec/30_encoding.md R75: the continuation bit stands on every byte but the last. -/
def wireContinues (bs : List Byte) : Bool := bs.dropLast.all fun b => 0x80#8 ≤ b

/-- Condition 3 of spec/30_encoding.md R75: the last byte has no continuation bit. -/
def wireTerminates (bs : List Byte) : Bool :=
  match bs.getLast? with
  | some b => b < 0x80#8
  | none => false

/-- Condition 4 of spec/30_encoding.md R75: only a one-byte encoding may end in 0x00. -/
def wireMinimal (bs : List Byte) : Bool := bs.length ≤ 1 || bs.getLast? != some 0x00#8

/-- Condition 5 of spec/30_encoding.md R75: a tenth byte is at most 0x01. -/
def wireTenthOk (bs : List Byte) : Bool :=
  match bs[9]? with
  | some b => b ≤ 0x01#8
  | none => true

/-- The valid encodings, spec/30_encoding.md R75: the five conditions together. -/
def wireOk (bs : List Byte) : Bool :=
  wireLengthOk bs && wireContinues bs && wireTerminates bs && wireMinimal bs && wireTenthOk bs

end Sys2Proof
end

