-- ==== Sys2Proof/Decode.lean ====
section
/-! DEFINITION. The command-word decoder, total on all 256 words and rejecting by name (spec/30_encoding.md R80, R81,
R83, R84), and the encoder written from the same table (R81). -/

namespace Sys2Proof

/-- Why a command word is illegal (spec/30_encoding.md R83). Both reasons give status ILLEGAL_OP at acceptance. -/
inductive CmdReject where
  /-- RSV != 0, with any OP. -/
  | reservedNotZero
  /-- RSV = 0 and OP = 0x0 or OP in 0x5..0xF. -/
  | opIllegal
  deriving DecidableEq, Repr

/-- The RSV field of a command word, bits 7:4 (spec/30_encoding.md R80). -/
def cmdRsv (c : Byte) : BitVec 4 := c.extractLsb' 4 4

/-- The OP field of a command word, bits 3:0 (spec/30_encoding.md R80). -/
def cmdOp (c : Byte) : BitVec 4 := c.extractLsb' 0 4

/-- The operation an OP code stands for (spec/30_encoding.md R81); none for an unassigned code. -/
def decodeOp (op : BitVec 4) : Option Instr :=
  if op = 0x1#4 then some .size
  else if op = 0x2#4 then some .enc
  else if op = 0x3#4 then some .decb
  else if op = 0x4#4 then some .decs
  else none

/-- Decoding a command word (spec/30_encoding.md R81, R83, R84): "each of the 256 values of CMD is either one of the
four rows of rule R81 or illegal". -/
def decodeCmd (c : Byte) : Except CmdReject Instr :=
  if cmdRsv c ≠ 0#4 then .error .reservedNotZero
  else
    match decodeOp (cmdOp c) with
    | some i => .ok i
    | none => .error .opIllegal

/-- The OP code of a command (spec/30_encoding.md R81). -/
def opCode : Instr → BitVec 4
  | .size => 0x1#4
  | .enc => 0x2#4
  | .decb => 0x3#4
  | .decs => 0x4#4

/-- The command word of a command: RSV = 0 above its OP code (spec/30_encoding.md R80, R81). -/
def encode (i : Instr) : Byte := 0#4 ++ opCode i

/-- The 8-bit command word whose low `nbits` bits are those of `w` and whose other bits are 0: every command word is
8 bits (spec/30_encoding.md R85). -/
def tableWord (nbits w : Nat) : Byte := BitVec.ofNat 8 (w % 2 ^ nbits)

/-- The instruction the decoder reads from a row of spec/opcode_table.json. -/
def decodeTableWord (nbits w : Nat) : Option Instr :=
  match decodeCmd (tableWord nbits w) with
  | .ok i => some i
  | .error _ => none

end Sys2Proof
end

