-- ==== Sys2Proof/Config.lean ====
section
/-! DEFINITION. The parameters the spec leaves OPEN (spec/00_scope.md R9, spec/93_implementation_defined.md U8, U9,
U11) and the one outcome it leaves unspecified (U3). Each is an uninterpreted constant: no proof can learn a value. -/

namespace Sys2Proof.Config

/-- `IBUF_CAP`, the capacity in bytes of the caller's input buffer: "OPEN, a parameter, any natural number"
(spec/00_scope.md R9). `State.ibufCap` starts from it (DESIGN CHOICE, log entry 5). -/
opaque ibufCap : Nat

/-- What fixes `FAIL_W`; see `failW`. -/
opaque failWOpen : Nat

/-- `FAIL_W`, the width of the source's failure code: "OPEN, a parameter with 1 <= FAIL_W <= 64" (spec/00_scope.md
R9). An uninterpreted number brought into the range the rule gives; `State.failW` starts from it (DESIGN CHOICE, log entry 5). -/
def failW : Nat := 1 + failWOpen % 64

/-- `CORE_BASE`: where the block's register port sits in a system address space, "left to the platform"
(spec/20_memory.md R61). No behaviour of the block depends on it. -/
opaque coreBase : Nat

/-- Whether the stream pull in flight at a reset took its reply from the source: the `n`-th such draw. "The model
admits both outcomes (consumed, not consumed)" (spec/93_implementation_defined.md U3; spec/70_reset_and_hazards.md
R210; DESIGN CHOICE, log entry 7). One sequence of draws serves every instance (log entry 12). -/
opaque pullInFlightTaken : Nat → Bool

/-- The register-port offset of a system address (spec/20_memory.md R61); none below the port. -/
def portOffset (addr : Nat) : Option Nat :=
  if coreBase ≤ addr then some (addr - coreBase) else none

end Sys2Proof.Config
end

