-- ==== Sys2Proof/Machine/State.lean ====
section
/-! DEFINITION. The state of one `varint_core` instance (spec/10_state.md R20) together with the two things outside
the block that its operations read, the caller's input buffer and the stream source (spec/20_memory.md R50), and the
order in which the three agents of spec/00_scope.md R18 move. Plain data throughout. -/

namespace Sys2Proof.Machine

/-- `STATUS.CODE`, spec/60_exceptions.md R180. Codes 8..15 are "not produced" and have no constructor (DEDUCED, log entry
17). -/
inductive StatusCode where
  /-- 0: the operation completed with a result. -/
  | ok
  /-- 1: the tenth byte exceeds 0x01. -/
  | overflow
  /-- 2: the encoding is longer than size() of its value. -/
  | notMinimal
  /-- 3: the buffer ended before a terminating byte. -/
  | underflow
  /-- 4: end of input at the first pull. -/
  | cleanEnd
  /-- 5: end of input after one or more bytes, before a terminating byte. -/
  | unexpectedEnd
  /-- 6: the source replied FAIL(c); c is in XFAIL. -/
  | transportFail
  /-- 7: the command word is not one of the four. -/
  | illegalOp
  deriving DecidableEq, Repr

/-- The three-way reply of the stream source, spec/20_memory.md R55: `BYTE(b) | END | FAIL(c)`. The failure code is
held in 64 bits; a pull takes its low FAIL_W bits (DESIGN CHOICE, log entry 6). -/
inductive Reply where
  | byte (b : Byte)
  | endOfInput
  | fail (c : Word)
  deriving DecidableEq, Repr

/-- The registers of the host's register port, spec/10_state.md R21. -/
inductive Reg where
  | cmd
  | status
  | arg
  | ibufLen
  | resVal
  | resCnt
  | xfail
  /-- `OBUF[i]`, i = 0..9. -/
  | obuf (i : Nat)
  deriving DecidableEq, Repr

/-- One move of one agent. The host's forms are those of spec/30_encoding.md R90, plus reset (spec/70_reset_and_hazards.md
R210); DESIGN CHOICE, log entry 3 says why the order of moves is data. -/
inductive Turn where
  /-- The host writes `v` at offset `off` of the register port, `bits` wide. -/
  | wr (off bits : Nat) (v : Word)
  /-- The host reads offset `off` of the register port, `bits` wide. -/
  | rd (off bits : Nat)
  /-- The host stores `b` into `IBUF[i]` by its own means (spec/20_memory.md R54). -/
  | ibuf (i : Nat) (b : Byte)
  /-- The host reads STATUS until BUSY = 0; the block steps meanwhile. -/
  | wait
  /-- Reset is asserted. -/
  | reset
  /-- The stream source gets one more reply ready, for the first pull not yet provided for. -/
  | src (r : Reply)
  /-- The block takes one step (spec/00_scope.md R15). -/
  | block
  deriving DecidableEq, Repr

/-- A byte store: (offset, byte) pairs, offsets strictly rising. An unlisted offset holds no value
(spec/10_state.md R39, spec/20_memory.md R52; DESIGN CHOICE, log entry 16). -/
abbrev Memory := List Host.Cell

/-- What `MemRead(IBUF, i)` does, spec/20_memory.md R52. -/
inductive IbufRead where
  /-- The byte at that offset. -/
  | byte (b : Byte)
  /-- Offset at or past IBUF_CAP: "no step (the block is stuck; the access is not admitted)". -/
  | noStep
  /-- Never written by the host: `fault(UnwrittenRead)`. -/
  | unwritten
  deriving DecidableEq, Repr

/-- Why the machine stops with a fault. -/
inductive Fault where
  /-- `fault(UnwrittenRead)` of spec/60_exceptions.md R190: a host read of an OBUF byte never written since reset, or
  a DECB read of an IBUF byte the host never wrote. Safe. -/
  | unwrittenRead
  /-- The host stores to IBUF at an offset >= IBUF_CAP, where the array has no byte (spec/20_memory.md R52). Safe
  (DESIGN CHOICE, log entry 9). -/
  | ibufRange
  /-- ENC would write OBUF past offset 9 (spec/20_memory.md R53): in no reachable state. Safe (DESIGN CHOICE, log entry 9). -/
  | obufRange
  /-- BUSY = 1 while it_op is no operation: in no reachable state. Safe (DESIGN CHOICE, log entry 9). -/
  | noOperation
  deriving DecidableEq, Repr

/-- Why the machine gives an event no meaning. -/
inductive Refusal where
  /-- Raised only by an arm of `exec` whose instruction has no meaning yet. Safe. -/
  | notModelled (mnemonic : String)
  /-- `refuse(BadAccess)` of spec/60_exceptions.md R190: a host access that breaks spec/10_state.md R30 or
  spec/70_reset_and_hazards.md R220. Raised by the host's turns. Safe. -/
  | badAccess
  deriving DecidableEq, Repr

/-- The machine: the block's registers (spec/10_state.md R21 to R32), what it reads outside itself, and whose turn
comes next. CMD is not here: it "stores nothing" (spec/10_state.md R38). -/
structure State where
  /-- STATUS.CODE, bits 3:0 (spec/10_state.md R25). -/
  code : StatusCode
  /-- STATUS.BUSY, bit 4 (spec/10_state.md R25, R36). -/
  busy : Bool
  /-- STATUS.DONE, bit 5 (spec/10_state.md R25, R36). -/
  done : Bool
  /-- ARG (spec/10_state.md R22). -/
  arg : Word
  /-- IBUF_LEN (spec/10_state.md R23). -/
  ibufLen : Word
  /-- RES_VAL (spec/10_state.md R26). -/
  resVal : Word
  /-- RES_CNT (spec/10_state.md R27). -/
  resCnt : Byte
  /-- XFAIL (spec/10_state.md R28). -/
  xfail : Word
  /-- OBUF[0..9] (spec/10_state.md R29). -/
  obuf : Memory
  /-- it_op: "the accepted OP" (spec/10_state.md R32). -/
  itOp : BitVec 4
  /-- it_idx: "the index of the next byte to emit or examine" (spec/10_state.md R32). -/
  itIdx : BitVec 4
  /-- it_rem: SIZE's operand, ENC's "value not yet emitted" (spec/10_state.md R32). -/
  itRem : Word
  /-- it_acc: "the value accumulated from the bytes examined so far" (spec/10_state.md R32). -/
  itAcc : Word
  /-- it_len: "the latched IBUF_LEN" (spec/10_state.md R32). -/
  itLen : Word
  /-- IBUF, the caller's input buffer (spec/20_memory.md R52). -/
  ibuf : Memory
  /-- IBUF_CAP of this machine; no step changes it (spec/00_scope.md R9; DESIGN CHOICE, log entry 5). -/
  ibufCap : Nat
  /-- FAIL_W of this machine's source; no step changes it (spec/00_scope.md R9; DESIGN CHOICE, log entry 5). -/
  failW : Nat
  /-- The stream source: its answers to the pulls still to come, first first (spec/20_memory.md R55). Empty: it gives
  no reply. -/
  source : List Reply
  /-- Whose turn comes next, first first; when it is empty every turn is the block's (DESIGN CHOICE, log entry 3). -/
  schedule : List Turn
  /-- What the host's reads have returned, last first (DESIGN CHOICE, log entry 15). -/
  hostReads : List Word
  /-- How many free values have been drawn (the model's own; DESIGN CHOICE, log entry 7). -/
  draws : Nat
  deriving DecidableEq, Repr

/-- The machine right after reset (spec/10_state.md R38): every register 0, OBUF with no value, no operation in
progress; and outside the block nothing has happened yet. The iteration registers, which then have "no meaning", are 0
by DESIGN CHOICE, log entry 1. -/
def State.reset : State where
  code := .ok
  busy := false
  done := false
  arg := 0#64
  ibufLen := 0#64
  resVal := 0#64
  resCnt := 0x00#8
  xfail := 0#64
  obuf := []
  itOp := 0#4
  itIdx := 0#4
  itRem := 0#64
  itAcc := 0#64
  itLen := 0#64
  ibuf := []
  ibufCap := Config.ibufCap
  failW := Config.failW
  source := []
  schedule := []
  hostReads := []
  draws := 0

end Sys2Proof.Machine
end

