-- ==== Sys2Proof/Machine/Flags.lean ====
section
/-! DEFINITION. The status register: the code numbers (spec/60_exceptions.md R180), STATUS as the host reads it
(spec/10_state.md R25) and the only two flag changes an operation makes (spec/10_state.md R36). -/

namespace Sys2Proof.Machine

/-- The number of a status code (spec/60_exceptions.md R180). -/
def codeBits : StatusCode → BitVec 4
  | .ok => 0#4
  | .overflow => 1#4
  | .notMinimal => 2#4
  | .underflow => 3#4
  | .cleanEnd => 4#4
  | .unexpectedEnd => 5#4
  | .transportFail => 6#4
  | .illegalOp => 7#4

/-- STATUS as one byte: bits 7:6 read as 0, DONE bit 5, BUSY bit 4, CODE bits 3:0 (spec/10_state.md R25). -/
def statusByte (s : State) : Byte :=
  0#2 ++ BitVec.ofBool s.done ++ BitVec.ofBool s.busy ++ codeBits s.code

/-- Acceptance of a legal command: CODE is 0 while BUSY = 1, DONE is cleared, BUSY is set (spec/10_state.md R31). -/
def flagsAtAcceptance (s : State) : State :=
  { s with code := .ok, done := false, busy := true }

/-- Completion: CODE holds the status, BUSY is cleared, DONE is set (spec/60_exceptions.md R183). -/
def flagsAtCompletion (code : StatusCode) (s : State) : State :=
  { s with code := code, busy := false, done := true }

end Sys2Proof.Machine
end

