-- ==== Sys2Proof/Machine/Operands.lean ====
section
/-! DEFINITION. The operand forms (spec/30_encoding.md R82): the chunks and flags of the wire format, what a byte
contributes to a value, and the operands a command latches at acceptance (spec/10_state.md R31). -/

namespace Sys2Proof.Machine

/-- `zext_8(v[7i+6 : 7i])`, chunk i of a value; bits above bit 63 are read as 0 (spec/30_encoding.md R70). -/
def chunk (v : Word) (i : Nat) : Byte := (v.extractLsb' (7 * i) 7).setWidth 8

/-- `0x80 | zext_8(...)`: a chunk that is not the last (spec/30_encoding.md R70, R71). -/
def withContinuation (b : Byte) : Byte := 0x80#8 ||| b

/-- Field C of an encoding byte, bit 7: another byte follows (spec/30_encoding.md R71). -/
def continues (b : Byte) : Bool := b.getLsbD 7

/-- `zext_64(b & 0x7F) << 7i`, what byte i contributes to the value (spec/30_encoding.md R82). -/
def contribution (b : Byte) (i : Nat) : Word := ((b &&& 0x7F#8).setWidth 64) <<< (7 * i)

/-- `zext_64(c)` of the FAIL_W-bit code c (spec/10_state.md R28; DESIGN CHOICE, log entry 6). -/
def failCode (failW : Nat) (c : Word) : Word := (c.setWidth failW).setWidth 64

/-- The operand latching of acceptance (spec/10_state.md R31): it_op, it_idx, it_acc, it_rem, it_len. -/
def latchOperands (op : BitVec 4) (s : State) : State :=
  { s with itOp := op, itIdx := 0#4, itAcc := 0#64, itRem := s.arg, itLen := s.ibufLen }

end Sys2Proof.Machine
end

