-- ==== Sys2Proof/Machine/Ops.lean ====
section
/-! DEFINITION. The named operations over memory and registers: byte stores, completion and `raise` (what this block
has in place of exception entry; "there is no trap", spec/60_exceptions.md R182), acceptance of a command, the memory
and stream primitives of spec/00_scope.md R13, and reset. -/

namespace Sys2Proof.Machine

/-! ### Byte stores -/

/-- The byte at offset `i`; none where nothing was written. -/
def Memory.read : Memory → Nat → Option Byte
  | [], _ => none
  | (a, x) :: m, i => if a = i then some x else Memory.read m i

/-- Sets the byte at offset `i`, keeping the offsets rising. -/
def Memory.write : Memory → Nat → Byte → Memory
  | [], i, b => [(i, b)]
  | (a, x) :: m, i, b =>
    if i < a then (i, b) :: (a, x) :: m
    else if i = a then (i, b) :: m
    else (a, x) :: Memory.write m i b

/-- The canonical form: offsets strictly rising. (No entry can equal what an unlisted offset reads as: that is no
value.) -/
abbrev Memory.wf (m : Memory) : Prop := m.Pairwise fun p q => p.1 < q.1

/-- The bytes at offsets below `n` alone. -/
def Memory.upTo (m : Memory) (n : Nat) : Memory := m.filter fun p => p.1 < n

/-- Every listed offset lies below `n`. -/
abbrev Memory.below (m : Memory) (n : Nat) : Prop := ∀ p ∈ m, p.1 < n

/-! ### Completion (spec/60_exceptions.md R183, R184) -/

/-- `complete(code, val, cnt)`: ends the current operation, writing its results in one step (spec/60_exceptions.md
R183). `none` is the rule's `keep`; `cnt` is the 4-bit count, widened with zeros (spec/10_state.md R27). -/
def complete (code : StatusCode) (val : Option Word) (cnt : BitVec 4) (s : State) : State :=
  flagsAtCompletion code { s with resVal := val.getD s.resVal, resCnt := cnt.setWidth 8 }

/-- `raise S` = complete(S, 0, 0) (spec/60_exceptions.md R184): an error ends the operation with its status and zero
results. Nothing is saved and no mode changes (R182, R187). -/
def raise (code : StatusCode) (s : State) : State := complete code (some 0#64) 0#4 s

/-! ### Acceptance (spec/10_state.md R31) -/

/-- `accept(c)`: XFAIL is cleared; an illegal word completes at once; a legal one latches its operands and sets
BUSY. -/
def accept (c : Byte) (s : State) : State :=
  match decodeCmd c with
  | .error _ => raise .illegalOp { s with xfail := 0#64 }
  | .ok _ => flagsAtAcceptance (latchOperands (cmdOp c) { s with xfail := 0#64 })

/-! ### Memory and stream primitives (spec/00_scope.md R13) -/

/-- `MemRead(IBUF, i)` (spec/20_memory.md R52). It has no side effect. -/
def memReadIbuf (i : Nat) (s : State) : IbufRead :=
  if s.ibufCap ≤ i then .noStep
  else
    match s.ibuf.read i with
    | none => .unwritten
    | some b => .byte b

/-- `MemWrite(OBUF, i, b)`, i in 0..9 (spec/20_memory.md R53); none past offset 9, where OBUF has no byte. -/
def memWriteObuf (i : Nat) (b : Byte) (s : State) : Option State :=
  if i < 10 then some { s with obuf := s.obuf.write i b } else none

/-- `SrcPull()` (spec/20_memory.md R55): takes the source's next reply, and the reply with it (R56); none while the
source gives no reply. -/
def srcPull (s : State) : Option (Reply × State) :=
  match s.source with
  | [] => none
  | r :: rest => some (r, { s with source := rest })

/-! ### What is in progress, and reset (spec/70_reset_and_hazards.md R210) -/

/-- An operation of kind `i` is in progress. -/
def running (i : Instr) (s : State) : Bool := s.busy && s.itOp == opCode i

/-- A DECS is held: its pull gets no reply (spec/42_decoder.md R157). That it is so from acceptance on, while the source has
no reply ready, is DEDUCED, log entry 10. -/
def awaitsReply (s : State) : Bool := running .decs s && s.source.isEmpty

/-- OBUF after a reset: the bytes an abandoned ENC has written, those below it_idx, keep their values
(spec/70_reset_and_hazards.md R210); "the rest as U1" (spec/93_implementation_defined.md U15), no value
(spec/10_state.md R38, R39; DEDUCED, log entry 2). -/
def obufAtReset (s : State) : Memory := if running .enc s then s.obuf.upTo s.itIdx.toNat else []

/-- The source after a reset: whether the pull in flight of an abandoned DECS took its reply is a free value
(spec/93_implementation_defined.md U3; DESIGN CHOICE, log entry 7). The n-th draw of every instance is the same value, which
spec/00_scope.md R9 ("each instance is independent") does not say: the model's choice too, log entries 7 and 12. -/
def sourceAtReset (s : State) : List Reply :=
  if running .decs s && Config.pullInFlightTaken s.draws then s.source.tail else s.source

/-- The reset event: every register to its reset value, the operation in progress abandoned without completing
(spec/70_reset_and_hazards.md R210, spec/10_state.md R38). What lies outside the block stays, but for U3. -/
def resetBlock (s : State) : State :=
  { s with
    code := .ok, busy := false, done := false
    arg := 0#64, ibufLen := 0#64, resVal := 0#64, resCnt := 0x00#8, xfail := 0#64
    obuf := obufAtReset s
    itOp := 0#4, itIdx := 0#4, itRem := 0#64, itAcc := 0#64, itLen := 0#64
    source := sourceAtReset s
    draws := if running .decs s then s.draws + 1 else s.draws }

end Sys2Proof.Machine
end

