-- ==== Sys2Proof/Machine/Decoder.lean ====
section
/-! DEFINITION. The unit `varint_decoder` (spec/42_decoder.md): one step of DECB and one of DECS. Both examine a byte
the same way ("identical semantics to 4.3", R151). -/

namespace Sys2Proof.Machine

/-- The tenth byte exceeds 0x01 (spec/42_decoder.md R143). -/
def overflows (b : Byte) (i : Nat) : Bool := i == 9 && 0x01#8 < b

/-- A terminating 0x00 after the first byte (spec/42_decoder.md R145; spec/90_conflicts.md C1). -/
def endsNonMinimal (b : Byte) (i : Nat) : Bool := b == 0x00#8 && 0 < i

/-- The accumulator after a byte (spec/42_decoder.md R142, R152). -/
def accumulate (b : Byte) (s : State) : Word := s.itAcc ||| contribution b s.itIdx.toNat

/-- One byte examined, in the order OVERFLOW, NOT_MINIMAL, OK (spec/42_decoder.md R142, R150, R152). -/
def examine (b : Byte) (s : State) : State :=
  if overflows b s.itIdx.toNat then raise .overflow s
  else if continues b then { s with itAcc := accumulate b s, itIdx := s.itIdx + 1#4 }
  else if endsNonMinimal b s.itIdx.toNat then raise .notMinimal s
  else complete .ok (some (accumulate b s)) (s.itIdx + 1#4) s

/-- END: CLEAN_END at the first pull, UNEXPECTED_END after it (spec/42_decoder.md R153). -/
def endStatus (idx : BitVec 4) : StatusCode := if idx = 0#4 then .cleanEnd else .unexpectedEnd

/-- One reply of the source taken (spec/42_decoder.md R152): the kind of the reply first (spec/60_exceptions.md
R186). -/
def takeReply (r : Reply) (s : State) : State :=
  match r with
  | .endOfInput => raise (endStatus s.itIdx) s
  | .fail c => raise .transportFail { s with xfail := failCode s.failW c }
  | .byte b => examine b s

/-- DECB, one step: UNDERFLOW where the buffer has ended, else the byte at it_idx is read and examined
(spec/42_decoder.md R142). A read past IBUF_CAP has no step: the operation holds (DEDUCED, log entry 4). -/
def execDecb (s : State) : Host.Outcome State Fault Refusal :=
  if s.itLen.toNat ≤ s.itIdx.toNat then .next (raise .underflow s)
  else
    match memReadIbuf s.itIdx.toNat s with
    | .noStep => .next s
    | .unwritten => .fault .unwrittenRead
    | .byte b => .next (examine b s)

/-- DECS, one step: one pull (spec/42_decoder.md R152). A pull that gets no reply holds the operation (R157; DEDUCED, log entry
4). -/
def execDecs (s : State) : Host.Outcome State Fault Refusal :=
  match srcPull s with
  | none => .next s
  | some (r, s') => .next (takeReply r s')

end Sys2Proof.Machine
end

