-- ==== Sys2Proof/Machine/Encoder.lean ====
section
/-! DEFINITION. The unit `varint_encoder` (spec/41_encoder.md): one step of ENC. -/

namespace Sys2Proof.Machine

/-- The byte ENC emits for the remaining value `r`: its low chunk, with the continuation bit "if more non-zero bits
remain" (spec/41_encoder.md R120, R121). -/
def encByte (r : Word) : Byte :=
  if r >>> 7 ≠ 0#64 then withContinuation (chunk r 0) else chunk r 0

/-- What follows the byte: the last one completes the operation with the count, any other moves on to the rest of the
value (spec/41_encoder.md R121). -/
def encAdvance (s : State) : State :=
  if s.itRem >>> 7 = 0#64 then complete .ok none (s.itIdx + 1#4) s
  else { s with itRem := s.itRem >>> 7, itIdx := s.itIdx + 1#4 }

/-- ENC, one step: emit one byte into OBUF[it_idx] (spec/41_encoder.md R121). -/
def execEnc (s : State) : Host.Outcome State Fault Refusal :=
  match memWriteObuf s.itIdx.toNat (encByte s.itRem) s with
  | none => .fault .obufRange
  | some s' => .next (encAdvance s')

end Sys2Proof.Machine
end

