-- ==== Sys2Proof/Machine/SizeCalc.lean ====
section
/-! DEFINITION. The unit `varint_size_calc` (spec/40_size_calc.md): bit length, size, and SIZE. -/

namespace Sys2Proof.Machine

/-- `bitlen(v)`: "the position of the highest set bit of v plus one, and bitlen(0) = 0" (spec/00_scope.md R12). -/
def bitlen (v : Word) : Nat := if v.toNat = 0 then 0 else Nat.log2 v.toNat + 1

/-- `size(v) = max(1, ceil(bitlen(v) / 7))` (spec/40_size_calc.md R100); 1..10 for every v. -/
def size (v : Word) : Nat := max 1 ((bitlen v + 6) / 7)

/-- SIZE: `complete(OK, keep, size(it_rem))` (spec/40_size_calc.md R101). -/
def execSize (s : State) : Host.Outcome State Fault Refusal :=
  .next (complete .ok none (BitVec.ofNat 4 (size s.itRem)) s)

end Sys2Proof.Machine
end

