-- ==== Sys2Proof/Machine/Dispatch.lean ====
section
/-! DEFINITION. One step of the operation a command started (spec/00_scope.md R15): one meaning per command. -/

namespace Sys2Proof.Machine

def exec (i : Instr) (s : State) : Host.Outcome State Fault Refusal :=
  match i with
  | .size => Sys2Proof.Machine.execSize s
  | .enc => Sys2Proof.Machine.execEnc s
  | .decb => Sys2Proof.Machine.execDecb s
  | .decs => Sys2Proof.Machine.execDecs s

end Sys2Proof.Machine
end

