-- ==== Sys2Proof/Machine/HostPort.lean ====
section
/-! DEFINITION. What the host does to the block: register accesses through the port (spec/10_state.md R21, R30), IBUF
stores (spec/20_memory.md R54), and the pseudo-instructions of spec/30_encoding.md R91. -/

namespace Sys2Proof.Machine

/-- The offset of a register (spec/10_state.md R21). -/
def Reg.offset : Reg → Nat
  | .cmd => 0x00
  | .status => 0x08
  | .arg => 0x10
  | .ibufLen => 0x18
  | .resVal => 0x20
  | .resCnt => 0x28
  | .xfail => 0x30
  | .obuf i => 0x40 + i

/-- The width of a register in bits (spec/10_state.md R21). -/
def Reg.width : Reg → Nat
  | .cmd => 8
  | .status => 8
  | .arg => 64
  | .ibufLen => 64
  | .resVal => 64
  | .resCnt => 8
  | .xfail => 64
  | .obuf _ => 8

/-- The register at an offset; "every other offset is unmapped" (spec/10_state.md R21). -/
def regAt (off : Nat) : Option Reg :=
  if off = 0x00 then some .cmd
  else if off = 0x08 then some .status
  else if off = 0x10 then some .arg
  else if off = 0x18 then some .ibufLen
  else if off = 0x20 then some .resVal
  else if off = 0x28 then some .resCnt
  else if off = 0x30 then some .xfail
  else if 0x40 ≤ off ∧ off < 0x4A then some (.obuf (off - 0x40))
  else none

/-- The register an access of `bits` bits at `off` reaches: at a mapped offset and of the register's width
(spec/10_state.md R30, spec/20_memory.md R58, R59). -/
def regAccessed (off bits : Nat) : Option Reg :=
  match regAt off with
  | none => none
  | some r => if bits = r.width then some r else none

/-- The host sees the value a read returns. -/
def seen (v : Word) (s : State) : State := { s with hostReads := v :: s.hostReads }

/-- A host write of a register (spec/10_state.md R30, R31): CMD, ARG and IBUF_LEN while BUSY = 0; every other write is
refused. -/
def writeReg (r : Reg) (v : Word) (s : State) : Host.Outcome State Fault Refusal :=
  if s.busy then .refused .badAccess
  else
    match r with
    | .cmd => .next (accept (v.setWidth 8) s)
    | .arg => .next { s with arg := v }
    | .ibufLen => .next { s with ibufLen := v }
    | .status => .refused .badAccess
    | .resVal => .refused .badAccess
    | .resCnt => .refused .badAccess
    | .xfail => .refused .badAccess
    | .obuf _ => .refused .badAccess

/-- A result register read: refused while BUSY = 1 (spec/70_reset_and_hazards.md R220). -/
def readResult (v : Word) (s : State) : Host.Outcome State Fault Refusal :=
  if s.busy then .refused .badAccess else .next (seen v s)

/-- A host read of an OBUF byte: refused while BUSY = 1 (spec/70_reset_and_hazards.md R220); one that holds no value
faults (spec/10_state.md R39). -/
def readObuf (i : Nat) (s : State) : Host.Outcome State Fault Refusal :=
  if s.busy then .refused .badAccess
  else
    match s.obuf.read i with
    | none => .fault .unwrittenRead
    | some b => .next (seen (b.setWidth 64) s)

/-- A host read of ARG or IBUF_LEN (spec/10_state.md R30), also while BUSY = 1, but for a held DECS, under which the host
"may only read STATUS or reset the block" (spec/42_decoder.md R157; DEDUCED, log entry 10). -/
def readOperand (v : Word) (s : State) : Host.Outcome State Fault Refusal :=
  if awaitsReply s then .refused .badAccess else .next (seen v s)

/-- A host read of a register (spec/10_state.md R30): CMD is write-only, STATUS may be read at any time, the results need
BUSY = 0. A read changes nothing in the block (spec/20_memory.md R60). -/
def readReg (r : Reg) (s : State) : Host.Outcome State Fault Refusal :=
  match r with
  | .cmd => .refused .badAccess
  | .status => .next (seen ((statusByte s).setWidth 64) s)
  | .arg => readOperand s.arg s
  | .ibufLen => readOperand s.ibufLen s
  | .resVal => readResult s.resVal s
  | .resCnt => readResult (s.resCnt.setWidth 64) s
  | .xfail => readResult s.xfail s
  | .obuf i => readObuf i s

/-- `wr`: a host write at an offset and a width (spec/10_state.md R30). -/
def portWrite (off bits : Nat) (v : Word) (s : State) : Host.Outcome State Fault Refusal :=
  match regAccessed off bits with
  | none => .refused .badAccess
  | some r => writeReg r v s

/-- `rd`: a host read at an offset and a width (spec/10_state.md R30). -/
def portRead (off bits : Nat) (s : State) : Host.Outcome State Fault Refusal :=
  match regAccessed off bits with
  | none => .refused .badAccess
  | some r => readReg r s

/-- The store would change one of IBUF[0..9] while a DECB runs (spec/70_reset_and_hazards.md R220, spec/20_memory.md R54;
DEDUCED, log entry 11). SIZE, ENC and DECS are not disturbed by a store: R220's words are taken, not the wider ones of
spec/92_eei_decisions.md D30 ("change IBUF ... while BUSY = 1"; DEDUCED, log entry 21). -/
def disturbsDecb (i : Nat) (b : Byte) (s : State) : Bool :=
  running .decb s && decide (i < 10) && s.ibuf.read i != some b

/-- `ibuf`: the host stores one byte of its buffer (spec/20_memory.md R52, R54); refused under a held DECS, as anything but
a STATUS read or a reset is (spec/42_decoder.md R157). -/
def storeIbuf (i : Nat) (b : Byte) (s : State) : Host.Outcome State Fault Refusal :=
  if awaitsReply s then .refused .badAccess
  else if s.ibufCap ≤ i then .fault .ibufRange
  else if disturbsDecb i b s then .refused .badAccess
  else .next { s with ibuf := s.ibuf.write i b }

/-- The stream source gets one more reply ready (spec/20_memory.md R55), behind any replies not yet pulled, which
spec/30_encoding.md R90 ("will answer the next pulls") does not settle (DESIGN CHOICE, log entry 24). -/
def provideReply (r : Reply) (s : State) : State := { s with source := s.source ++ [r] }

/-! ### Host programs (spec/30_encoding.md R90, R91) -/

/-- `wr REG, imm`. -/
def wrReg (r : Reg) (v : Word) : Turn := .wr r.offset r.width v

/-- `rd REG`. -/
def rdReg (r : Reg) : Turn := .rd r.offset r.width

/-- `wr CMD, SIZE` and the like: "the command word of rule R81". -/
def wrCmd (i : Instr) : Turn := wrReg .cmd ((encode i).setWidth 64)

/-- `ibuf b0, b1, ...`: stores into IBUF[0], IBUF[1], ... -/
def ibufBytes (bs : List Byte) : List Turn := bs.zipIdx.map fun p => .ibuf p.2 p.1

/-- `src r0, r1, ...`. -/
def srcReplies (rs : List Reply) : List Turn := rs.map .src

/-- `size v`. -/
def pseudoSize (v : Word) : List Turn := [wrReg .arg v, wrCmd .size, .wait]

/-- `enc v`. -/
def pseudoEnc (v : Word) : List Turn := [wrReg .arg v, wrCmd .enc, .wait]

/-- `decb b0, ..., bn-1`. Of 2^64 bytes or more, IBUF_LEN gets the low 64 bits of n: no rule says what a write of a wider
number does (DESIGN CHOICE, log entry 25). -/
def pseudoDecb (bs : List Byte) : List Turn :=
  ibufBytes bs ++ [wrReg .ibufLen (BitVec.ofNat 64 bs.length), wrCmd .decb, .wait]

/-- `decs`. -/
def pseudoDecs : List Turn := [wrCmd .decs, .wait]

end Sys2Proof.Machine
end

