-- ==== Sys2Proof/Machine/Turns.lean ====
section
/-! DEFINITION. One move of one agent: the block's step and each of the host's and the source's turns. -/

namespace Sys2Proof.Machine

/-- The block's step (spec/00_scope.md R15): one step of the operation in progress; idle, it "does nothing until a
command write" (spec/60_exceptions.md R196). -/
def blockStep (s : State) : Host.Outcome State Fault Refusal :=
  if s.busy then
    match decodeOp s.itOp with
    | some i => exec i s
    | none => .fault .noOperation
  else .next s

/-- `wait`: while BUSY = 1 the block steps and the host goes on waiting; then the host has read STATUS with BUSY = 0
(spec/30_encoding.md R90; DESIGN CHOICE, log entry 14). -/
def waitTurn (s : State) : Host.Outcome State Fault Refusal :=
  if s.busy then blockStep { s with schedule := .wait :: s.schedule }
  else .next (seen ((statusByte s).setWidth 64) s)

/-- One turn, already taken off the schedule. -/
def takeTurn (t : Turn) (s : State) : Host.Outcome State Fault Refusal :=
  match t with
  | .wr off bits v => portWrite off bits v s
  | .rd off bits => portRead off bits s
  | .ibuf i b => storeIbuf i b s
  | .wait => waitTurn s
  | .reset => .next (resetBlock s)
  | .src r => .next (provideReply r s)
  | .block => blockStep s

/-- Makes the next turn the block's (DESIGN CHOICE, log entry 8). -/
def giveBlockTurn (s : State) : State :=
  match s.schedule with
  | [] => s
  | t :: rest => { s with schedule := .block :: t :: rest }

/-- The host's write of command word `c`, accepted, and the turn given to the block (DESIGN CHOICE, log entry 8). -/
def placeCommand (c : Byte) (s : State) : State := giveBlockTurn (accept c s)

end Sys2Proof.Machine
end

