-- ==== Sys2Proof/Machine/Step.lean ====
section
/-! DEFINITION. One step of the machine: the next turn of the schedule, the block's when the schedule is empty. There
is no fetch (spec/10_state.md R35): a command comes to run by the host's write of CMD (R31). -/

namespace Sys2Proof.Machine

/-- One step. -/
def step (s : State) : Host.Outcome State Fault Refusal :=
  match s.schedule with
  | [] => blockStep s
  | t :: rest => takeTurn t { s with schedule := rest }

/-- `s` with the command word written to CMD and accepted, so that the very next step is the command's first
(DESIGN CHOICE, log entry 8). -/
def State.withFetchWord (s : State) (nbits w : Nat) : State := placeCommand (tableWord nbits w) s

end Sys2Proof.Machine
end

