-- ==== Sys2Proof/Machine/System.lean ====
section
/-! DEFINITION. Several instances of `varint_core` (spec/60_exceptions.md R194): "each instance is independent"
(spec/00_scope.md R9), so a system is a list of machines and a step of it is a step of one of them. -/

namespace Sys2Proof.Machine

/-- A step of instance `k`; the others do not move (spec/20_memory.md R68). Where there is no instance `k`, nothing
moves (DESIGN CHOICE, log entry 12). A fault or refusal of one instance is that of the whole system's step, with no next state
for any instance: spec/60_exceptions.md R190 says so of a refusal's run, and not what a fault does to the other instances
(DESIGN CHOICE, log entry 23). -/
def stepInstance (k : Nat) (sys : List State) : Host.Outcome (List State) Fault Refusal :=
  match sys[k]? with
  | none => .next sys
  | some s =>
    match step s with
    | .next t => .next (sys.set k t)
    | .fault f => .fault f
    | .refused r => .refused r

end Sys2Proof.Machine
end

