-- ==== Sys2Proof/Machine/Transaction.lean ====
section
/-! DEFINITION. The transaction level (spec/00_scope.md R19): one pure function per operation, from inputs to results.
The machine does not run these; the statements compare its steps with them. -/

namespace Sys2Proof.Machine

/-- Byte i of the encoding of v (spec/30_encoding.md R70): every byte but the last carries the continuation bit. -/
def wireByte (v : Word) (i : Nat) : Byte :=
  if i + 1 < size v then withContinuation (chunk v i) else chunk v i

/-- `encode(v)`, the byte sequence of spec/30_encoding.md R70 (spec/41_encoder.md R122). -/
def wireEncode (v : Word) : List Byte := (List.range (size v)).map (wireByte v)

/-- The value a byte sequence stands for: "OR over i of zext_64(b[i] & 0x7F) << 7i" (spec/30_encoding.md R75), from
index `i` on. -/
def wireValueFrom (i : Nat) : List Byte → Word
  | [] => 0#64
  | b :: bs => contribution b i ||| wireValueFrom (i + 1) bs

/-- The value of a byte sequence (spec/30_encoding.md R75). -/
def wireValue (bs : List Byte) : Word := wireValueFrom 0 bs

/-- A decoder's result: status, value, count (spec/42_decoder.md R147). -/
structure DecodeResult where
  status : StatusCode
  value : Word
  count : Nat
  deriving DecidableEq, Repr

/-- An error's result: zero value and zero count (spec/42_decoder.md R149). -/
def DecodeResult.error (c : StatusCode) : DecodeResult := ⟨c, 0#64, 0⟩

/-- The loop of `decodeBuf` from index `i` with accumulator `acc`, over the bytes not yet examined
(spec/42_decoder.md R147). At index 9 it always returns (R146). -/
def decodeBufFrom (i : Nat) (acc : Word) : List Byte → DecodeResult
  | [] => .error .underflow
  | b :: bs =>
    if overflows b i then .error .overflow
    else if 0x80#8 ≤ b then decodeBufFrom (i + 1) (acc ||| contribution b i) bs
    else if endsNonMinimal b i then .error .notMinimal
    else ⟨.ok, acc ||| contribution b i, i + 1⟩

/-- `decodeBuf(bytes, n)` (spec/42_decoder.md R147), for a list that holds the `n` bytes. Of a shorter list the rule says
nothing; here it is decoded as a buffer of its own length, UNDERFLOW at its end (DESIGN CHOICE, log entry 22). -/
def decodeBuf (bytes : List Byte) (n : Nat) : DecodeResult := decodeBufFrom 0 0#64 (bytes.take n)

/-- The index at which a buffer decode ends: the first byte, of the first nine, without continuation bit, else the end
of the bytes, else index 9 (spec/42_decoder.md R146, R150). It takes one step more than this (spec/70_reset_and_hazards.md
R230). -/
def decodeIndex (bytes : List Byte) : Nat := ((bytes.take 9).takeWhile fun b => 0x80#8 ≤ b).length

/-- `decodeStream`'s result (spec/42_decoder.md R154): that of a decoder, with XFAIL and the number of pulls. -/
structure StreamResult where
  result : DecodeResult
  xfail : Word
  pulled : Nat
  deriving DecidableEq, Repr

/-- The loop of `decodeStream` from index `i` (spec/42_decoder.md R154); none where a pull gets no reply. -/
def decodeStreamFrom (failW : Nat) (i : Nat) (acc : Word) : List Reply → Option StreamResult
  | [] => none
  | .endOfInput :: _ => some ⟨.error (if i = 0 then .cleanEnd else .unexpectedEnd), 0#64, i + 1⟩
  | .fail c :: _ => some ⟨.error .transportFail, failCode failW c, i + 1⟩
  | .byte b :: rs =>
    if overflows b i then some ⟨.error .overflow, 0#64, i + 1⟩
    else if 0x80#8 ≤ b then decodeStreamFrom failW (i + 1) (acc ||| contribution b i) rs
    else if endsNonMinimal b i then some ⟨.error .notMinimal, 0#64, i + 1⟩
    else some ⟨⟨.ok, acc ||| contribution b i, i + 1⟩, 0#64, i + 1⟩

/-- `decodeStream(replies)` (spec/42_decoder.md R154). -/
def decodeStream (failW : Nat) (replies : List Reply) : Option StreamResult :=
  decodeStreamFrom failW 0 0#64 replies

end Sys2Proof.Machine
end

