-- ==== Sys2Proof/Safety.lean ====
section
/-! DEFINITION. What claims about runs are stated in: the invariant of every state the machine can be in, and an
operation that completes in a given number of steps. -/

namespace Sys2Proof.Machine

/-- What holds of every state from reset on. Each field cites the rule that promises it. -/
structure Inv (s : State) : Prop where
  /-- OBUF is in canonical form. -/
  obufWf : s.obuf.wf
  /-- OBUF has offsets 0..9 only (spec/10_state.md R29). -/
  obufBelow : s.obuf.below 10
  /-- IBUF is in canonical form. -/
  ibufWf : s.ibuf.wf
  /-- IBUF has offsets below IBUF_CAP only (spec/20_memory.md R52). -/
  ibufBelow : s.ibuf.below s.ibufCap
  /-- 1 <= FAIL_W <= 64 (spec/00_scope.md R9). -/
  failWRange : 1 ≤ s.failW ∧ s.failW ≤ 64
  /-- XFAIL is the zero-extension of a FAIL_W-bit code (spec/10_state.md R28). -/
  xfailWidth : s.xfail.toNat < 2 ^ s.failW
  /-- "BUSY = 1 and DONE = 1 never hold together" (spec/10_state.md R25). -/
  flagsApart : ¬ (s.busy = true ∧ s.done = true)
  /-- CODE is "0 while BUSY = 1" (spec/10_state.md R25). -/
  busyCode : s.busy = true → s.code = .ok
  /-- RES_CNT holds "a count in 0..10" (spec/10_state.md R27). -/
  countRange : s.resCnt.toNat ≤ 10
  /-- XFAIL is 0 but after TRANSPORT_FAIL (spec/70_reset_and_hazards.md R222). -/
  xfailMeaning : s.xfail ≠ 0#64 → s.done = true ∧ s.code = .transportFail
  /-- An error reports zero results (spec/42_decoder.md R149, spec/60_exceptions.md R181). -/
  errorZero : s.done = true → s.code ≠ .ok → s.resVal = 0#64 ∧ s.resCnt = 0x00#8
  /-- A success reports a count of 1 or more (spec/10_state.md R27). -/
  okCount : s.done = true → s.code = .ok → 1 ≤ s.resCnt.toNat
  /-- Before any command is accepted the results hold their reset values (spec/70_reset_and_hazards.md R221). -/
  freshZero : s.busy = false → s.done = false →
    s.code = .ok ∧ s.resVal = 0#64 ∧ s.resCnt = 0x00#8
  /-- While an operation runs, it_op is one of the four (spec/10_state.md R31, R32). -/
  busyOp : s.busy = true → (decodeOp s.itOp).isSome = true
  /-- While an operation runs, it_idx never passes 9 (spec/10_state.md R35). -/
  busyIdx : s.busy = true → s.itIdx.toNat ≤ 9
  /-- SIZE has one step, so its it_idx stays 0 (spec/40_size_calc.md R101). -/
  sizeIdx : running .size s = true → s.itIdx = 0#4
  /-- ENC's remaining value has at most 64 - 7 * it_idx bits, and is 0 only at it_idx = 0 (spec/41_encoder.md R124). -/
  encRem : running .enc s = true →
    s.itRem.toNat < 2 ^ (64 - 7 * s.itIdx.toNat) ∧ (s.itIdx ≠ 0#4 → s.itRem ≠ 0#64)
  /-- Every byte ENC has emitted before its last carries the continuation bit (spec/41_encoder.md R125). -/
  encOut : running .enc s = true →
    ∀ j < s.itIdx.toNat, ∃ b, s.obuf.read j = some b ∧ continues b = true
  /-- The accumulator lies below bit 7 * it_idx: "the shift never loses bits" (spec/42_decoder.md R142). -/
  busyAcc : s.busy = true → s.itAcc.toNat < 2 ^ (7 * s.itIdx.toNat)

/-- `t` is `u` but for the iteration state, which after completion "has no meaning" (spec/10_state.md R32,
spec/60_exceptions.md R183): what a completing step leaves there is not the spec's (DESIGN CHOICE, log entry 13). -/
def EqualUpToIteration (t u : State) : Prop :=
  t = { u with itOp := t.itOp, itIdx := t.itIdx, itRem := t.itRem, itAcc := t.itAcc, itLen := t.itLen }

/-- The operation in progress in `s` completes after exactly `k` steps, in `t` (spec/70_reset_and_hazards.md R230). -/
def CompletesIn (k : Nat) (s t : State) : Prop :=
  Sys2Proof.core.run k s = .next t ∧ t.busy = false ∧
    ∀ j < k, ∃ u : State, Sys2Proof.core.run j s = .next u ∧ u.busy = true

/-- `s` with a command word written to CMD and accepted while the block is idle and every turn is the block's
(spec/10_state.md R31). -/
def started (i : Instr) (s : State) : State := { accept (encode i) s with schedule := [] }

end Sys2Proof.Machine
end

