-- ==== Sys2Proof/Certificates/Slice0/Obligations.lean ====
section
/-! DEFINITION. The statements about the model, each from the numbered rule of spec/ its docstring names. -/

open Sys2Proof Sys2Proof.Machine

/-! ### Reset -/

/-- spec/10_state.md R38: the state after reset. CMD has no clause: it stores nothing, so State has no field for it.
The iteration registers have no meaning then and are not mentioned. -/
def Obligations.ResetStateAsSpecified : Prop :=
  statusByte State.reset = 0x00#8 ∧ State.reset.code = .ok ∧ State.reset.busy = false ∧ State.reset.done = false ∧
    State.reset.arg = 0#64 ∧ State.reset.ibufLen = 0#64 ∧ State.reset.resVal = 0#64 ∧ State.reset.resCnt = 0x00#8 ∧
    State.reset.xfail = 0#64 ∧ ∀ i < 10, State.reset.obuf.read i = none

/-- spec/70_reset_and_hazards.md R210, with the treatment of spec/93_implementation_defined.md U15: reset at any time, with
an operation in progress or not. The OBUF bytes an abandoned ENC has written keep their values; an abandoned DECS may or
may not have taken a reply. That the bytes written are those below it_idx is log entry 2 (DEDUCED). -/
def Obligations.ResetEventAbandonsOperation : Prop :=
  ∀ (s : State) (rest : List Turn), s.schedule = .reset :: rest →
    ∃ t, step s = .next t ∧ t.code = .ok ∧ t.busy = false ∧ t.done = false ∧ t.arg = 0#64 ∧ t.ibufLen = 0#64 ∧
      t.resVal = 0#64 ∧ t.resCnt = 0x00#8 ∧ t.xfail = 0#64 ∧
      (s.busy = true → s.itOp = 0x2#4 → ∀ i < s.itIdx.toNat, t.obuf.read i = s.obuf.read i) ∧
      (s.busy = true → s.itOp = 0x4#4 → t.source = s.source ∨ t.source = s.source.tail) ∧
      (¬ (s.busy = true ∧ s.itOp = 0x4#4) → t.source = s.source) ∧
      t.ibuf = s.ibuf ∧ t.ibufCap = s.ibufCap ∧ t.failW = s.failW ∧ t.hostReads = s.hostReads ∧ t.schedule = rest

/-- spec/10_state.md R38 and R39, spec/93_implementation_defined.md U15: a reset leaves every OBUF byte without a value
but those an abandoned ENC has written. That a byte of an EARLIER ENC is no exception, though R210 says the others "keep
their earlier contents", is the model's reading (DEDUCED, log entry 2). -/
def Obligations.ResetEventForgetsObuf : Prop :=
  ∀ (s : State) (rest : List Turn), s.schedule = .reset :: rest →
    ∃ t, step s = .next t ∧
      ∀ i, ¬ (s.busy = true ∧ s.itOp = 0x2#4 ∧ i < s.itIdx.toNat) → t.obuf.read i = none

/-! ### The host's register port -/

/-- spec/10_state.md R30 and spec/42_decoder.md R157: which host writes and reads are refused, by offset, width, BUSY and,
for ARG and IBUF_LEN, whether a DECS is held. That these two may be read while BUSY = 1 under anything else is the model's
reading (DEDUCED, log entry 10). -/
def Obligations.PortRefusesExactlyBadAccesses : Prop :=
  (∀ (s : State) (off bits : Nat) (v : Word) (rest : List Turn), s.schedule = .wr off bits v :: rest →
    (step s = .refused .badAccess ↔
      s.busy = true ∨
        ¬ ((off = 0x00 ∧ bits = 8) ∨ (off = 0x10 ∧ bits = 64) ∨ (off = 0x18 ∧ bits = 64)))) ∧
  (∀ (s : State) (off bits : Nat) (rest : List Turn), s.schedule = .rd off bits :: rest →
    (step s = .refused .badAccess ↔
      ¬ (off = 0x08 ∧ bits = 8) ∧
        ((s.busy = true ∧ s.itOp = 0x4#4 ∧ s.source = []) ∨
          ¬ ((off = 0x10 ∧ bits = 64) ∨ (off = 0x18 ∧ bits = 64)) ∧
            (s.busy = true ∨
              ¬ ((off = 0x20 ∧ bits = 64) ∨ (off = 0x28 ∧ bits = 8) ∨ (off = 0x30 ∧ bits = 64) ∨
                (0x40 ≤ off ∧ off ≤ 0x49 ∧ bits = 8))))))

/-- spec/10_state.md R39: a host read of an OBUF byte that holds no value faults; it is never a value. -/
def Obligations.UnwrittenObufReadFaults : Prop :=
  ∀ (s : State) (i : Nat) (rest : List Turn), i < 10 → s.busy = false → s.obuf.read i = none →
    s.schedule = .rd (0x40 + i) 8 :: rest → step s = .fault .unwrittenRead

/-- spec/10_state.md R21, R30 and spec/20_memory.md R60: what a read of each register returns; it changes nothing
else. That ARG and IBUF_LEN may be read while BUSY = 1 too, but for a held DECS (spec/42_decoder.md R157), is the model's
reading (DEDUCED, log entry 10), and that a value
read goes to the list hostReads its choice (DESIGN CHOICE, log entry 15). -/
def Obligations.ReadReturnsRegisterAndChangesNothing : Prop :=
  ∀ (s : State) (off bits : Nat) (rest : List Turn), s.schedule = .rd off bits :: rest →
    (off = 0x08 → bits = 8 →
      step s = .next { s with schedule := rest, hostReads := (statusByte s).setWidth 64 :: s.hostReads }) ∧
    (¬ (s.busy = true ∧ s.itOp = 0x4#4 ∧ s.source = []) →
      (off = 0x10 → bits = 64 → step s = .next { s with schedule := rest, hostReads := s.arg :: s.hostReads }) ∧
      (off = 0x18 → bits = 64 →
        step s = .next { s with schedule := rest, hostReads := s.ibufLen :: s.hostReads })) ∧
    (s.busy = false →
      (off = 0x20 → bits = 64 →
        step s = .next { s with schedule := rest, hostReads := s.resVal :: s.hostReads }) ∧
      (off = 0x28 → bits = 8 →
        step s = .next { s with schedule := rest, hostReads := s.resCnt.setWidth 64 :: s.hostReads }) ∧
      (off = 0x30 → bits = 64 →
        step s = .next { s with schedule := rest, hostReads := s.xfail :: s.hostReads }) ∧
      (∀ i b, i < 10 → off = 0x40 + i → bits = 8 → s.obuf.read i = some b →
        step s = .next { s with schedule := rest, hostReads := b.setWidth 64 :: s.hostReads }))

/-- spec/20_memory.md R60: "writes to ARG and IBUF_LEN have no other effect" than the write. -/
def Obligations.OperandWritesHaveNoOtherEffect : Prop :=
  ∀ (s : State) (v : Word) (rest : List Turn), s.busy = false →
    (s.schedule = .wr 0x10 64 v :: rest → step s = .next { s with schedule := rest, arg := v }) ∧
    (s.schedule = .wr 0x18 64 v :: rest → step s = .next { s with schedule := rest, ibufLen := v })

/-- spec/10_state.md R25 and spec/60_exceptions.md R180: the fields of STATUS, the code numbers, and the hardwired
bits 7:6. -/
def Obligations.StatusByteLayout : Prop :=
  (∀ s : State, (statusByte s).extractLsb' 0 4 = codeBits s.code ∧ (statusByte s).getLsbD 4 = s.busy ∧
    (statusByte s).getLsbD 5 = s.done ∧ (statusByte s).extractLsb' 6 2 = 0#2) ∧
  codeBits .ok = 0#4 ∧ codeBits .overflow = 1#4 ∧ codeBits .notMinimal = 2#4 ∧ codeBits .underflow = 3#4 ∧
  codeBits .cleanEnd = 4#4 ∧ codeBits .unexpectedEnd = 5#4 ∧ codeBits .transportFail = 6#4 ∧
  codeBits .illegalOp = 7#4

/-- spec/70_reset_and_hazards.md R220, its clause on IBUF, with spec/20_memory.md R54 and spec/42_decoder.md R157: a store
that would change one of IBUF[0..9] while a DECB runs, and any store under a held DECS, is refused; any other store inside
the buffer lands. That a store of the byte already
there changes nothing is the model's reading (DEDUCED, log entry 11); so is that stores land while SIZE, ENC or a DECS
with a reply ready runs, and at offset 10 and above under a DECB (DEDUCED, log entry 21). -/
def Obligations.IbufStoreRefusedOnlyUnderDecb : Prop :=
  ∀ (s : State) (i : Nat) (b : Byte) (rest : List Turn), s.schedule = .ibuf i b :: rest → i < s.ibufCap →
    (s.busy = true → s.itOp = 0x3#4 → i ≤ 9 → s.ibuf.read i ≠ some b → step s = .refused .badAccess) ∧
    (s.busy = true → s.itOp = 0x4#4 → s.source = [] → step s = .refused .badAccess) ∧
    (¬ (s.busy = true ∧ s.itOp = 0x4#4 ∧ s.source = []) →
      ¬ (s.busy = true ∧ s.itOp = 0x3#4 ∧ i ≤ 9 ∧ s.ibuf.read i ≠ some b) →
      ∃ m, step s = .next { s with schedule := rest, ibuf := m } ∧ m.read i = some b ∧
        ∀ j, j ≠ i → m.read j = s.ibuf.read j)

/-- spec/30_encoding.md R90, `wait`: with BUSY = 0 the host has read STATUS; with BUSY = 1 the block moves and the host
goes on waiting. That the block takes exactly one step per poll is the model's choice (DESIGN CHOICE, log entry 14). -/
def Obligations.WaitPollsStatus : Prop :=
  ∀ (s : State) (rest : List Turn), s.schedule = .wait :: rest →
    (s.busy = false →
      step s = .next { s with schedule := rest, hostReads := (statusByte s).setWidth 64 :: s.hostReads }) ∧
    (s.busy = true → step s = blockStep s)

/-- spec/30_encoding.md R91: the pseudo-instructions are these host actions. That `decb` with 2^64 bytes or more writes n
mod 2^64 is the model's choice (DESIGN CHOICE, log entry 25). -/
def Obligations.PseudoInstructionsExpandAsTabled : Prop :=
  (∀ v : Word, pseudoSize v = [.wr 0x10 64 v, .wr 0x00 8 0x01#64, .wait]) ∧
  (∀ v : Word, pseudoEnc v = [.wr 0x10 64 v, .wr 0x00 8 0x02#64, .wait]) ∧
  (∀ bs : List Byte, pseudoDecb bs =
    bs.zipIdx.map (fun p => Turn.ibuf p.2 p.1) ++
      [.wr 0x18 64 (BitVec.ofNat 64 bs.length), .wr 0x00 8 0x03#64, .wait]) ∧
  pseudoDecs = [.wr 0x00 8 0x04#64, .wait]

/-! ### Commands: encoding and acceptance -/

/-- spec/30_encoding.md R81 and R84: the four command words and no other decode, and each to its command. -/
def Obligations.CommandWordsDecodeAsTabled : Prop :=
  ∀ c : Byte,
    (decodeCmd c = .ok .size ↔ c = 0x01#8) ∧ (decodeCmd c = .ok .enc ↔ c = 0x02#8) ∧
    (decodeCmd c = .ok .decb ↔ c = 0x03#8) ∧ (decodeCmd c = .ok .decs ↔ c = 0x04#8) ∧
    ((∃ r, decodeCmd c = .error r) ↔ c ≠ 0x01#8 ∧ c ≠ 0x02#8 ∧ c ≠ 0x03#8 ∧ c ≠ 0x04#8)

/-- spec/30_encoding.md R81: encoding and decoding agree, both ways. -/
def Obligations.CommandEncodeDecodeAgree : Prop :=
  (∀ i : Instr, i.wf = true → decodeCmd (encode i) = .ok i ∧ decodeTableWord 8 (encode i).toNat = some i) ∧
  (∀ (c : Byte) (i : Instr), decodeCmd c = .ok i → encode i = c)

/-- spec/10_state.md R31: what a host write of CMD does while BUSY = 0, and that the operation then runs by the step of
its unit. -/
def Obligations.AcceptanceFollowsPseudocode : Prop :=
  ∀ (s : State) (v : Word) (c : Byte) (rest : List Turn), s.busy = false → c = v.setWidth 8 →
    s.schedule = .wr 0x00 8 v :: rest →
    (c = 0x01#8 ∨ c = 0x02#8 ∨ c = 0x03#8 ∨ c = 0x04#8 →
      ∃ t, step s = .next t ∧ t = { s with
        schedule := rest, xfail := 0#64, itOp := c.extractLsb' 0 4, itIdx := 0#4, itAcc := 0#64, itRem := s.arg,
        itLen := s.ibufLen, code := .ok, done := false, busy := true } ∧
        ∃ i, encode i = c ∧ step { t with schedule := [] } = exec i { t with schedule := [] }) ∧
    (¬ (c = 0x01#8 ∨ c = 0x02#8 ∨ c = 0x03#8 ∨ c = 0x04#8) →
      ∃ t, step s = .next t ∧ EqualUpToIteration t { s with
        schedule := rest, xfail := 0#64, code := .illegalOp, resVal := 0#64, resCnt := 0x00#8, busy := false,
        done := true })

/-- spec/60_exceptions.md R196: idle, the block does nothing, and only the write of a legal command word makes it busy
(reset does not: it leaves BUSY = 0, R210). -/
def Obligations.OnlyALegalCommandWakesTheBlock : Prop :=
  (∀ s : State, s.busy = false → s.schedule = [] → step s = .next s) ∧
  (∀ s t : State, step s = .next t → s.busy = false → t.busy = true →
    ∃ v rest, s.schedule = .wr 0x00 8 v :: rest ∧
      (v.setWidth 8 = 0x01#8 ∨ v.setWidth 8 = 0x02#8 ∨ v.setWidth 8 = 0x03#8 ∨ v.setWidth 8 = 0x04#8))

/-- spec/00_scope.md R15 and spec/10_state.md R31: a step of the block runs the command in it_op. When the block moves is
the model's choice, not the rules': with an empty schedule (DESIGN CHOICE, log entry 3), on a turn given to it, which is then
gone (log entry 3), and during a `wait`, which stays (DESIGN CHOICE, log entry 14). So is that a word placed by
`withFetchWord`, in any state, is run by the very next step (DESIGN CHOICE, log entry 8). -/
def Obligations.StepRunsTheAcceptedCommand : Prop :=
  (∀ (s : State) (i : Instr) (rest : List Turn), s.busy = true → s.itOp = (encode i).extractLsb' 0 4 →
    (s.schedule = [] → step s = exec i s) ∧
    (s.schedule = .block :: rest → step s = exec i { s with schedule := rest }) ∧
    (s.schedule = .wait :: rest → step s = exec i s)) ∧
  (∀ (s : State) (i : Instr), step (s.withFetchWord 8 (encode i).toNat) = exec i (accept (encode i) s))

/-! ### SIZE -/

/-- spec/40_size_calc.md R100, in a step of SIZE: SIZE completes with OK and RES_CNT = max(1, ceil(b / 7)), b the bit
length of the operand, which is in 1..10; everything else is as before. -/
def Obligations.SizeReportsMinimalByteCount : Prop :=
  ∀ (s : State) (b : Nat), s.itRem.toNat < 2 ^ b → (b ≠ 0 → 2 ^ (b - 1) ≤ s.itRem.toNat) →
    ∃ t, exec .size s = .next t ∧ EqualUpToIteration t { s with
      code := .ok, busy := false, done := true, resCnt := BitVec.ofNat 8 (max 1 ((b + 6) / 7)) } ∧
      t.resCnt.toNat = max 1 ((b + 6) / 7) ∧ t.resCnt.toNat ≤ 10

/-- spec/40_size_calc.md R103: the comparator form of size, and the rows of spec/30_encoding.md R76. -/
def Obligations.SizeComparatorForm : Prop :=
  ∀ v : Word,
    size v = 1 + ((List.range 10).filter fun k => 1 ≤ k && 2 ^ (7 * k) ≤ v.toNat).length ∧
    ∀ k, 1 ≤ k → k ≤ 10 → (size v = k ↔ v.toNat < 2 ^ (7 * k) ∧ (k ≠ 1 → 2 ^ (7 * (k - 1)) ≤ v.toNat))

/-- spec/40_size_calc.md R106: size is monotone, takes each value 1..10, and changes only at 2^(7k), k = 1..9, where it
rises by one. -/
def Obligations.SizeIsMonotone : Prop :=
  (∀ v w : Word, v ≤ w → size v ≤ size w) ∧
  (∀ k, 1 ≤ k → k ≤ 10 → ∃ v : Word, size v = k) ∧
  (∀ v : Word, v.toNat + 1 < 2 ^ 64 → (∀ k, 1 ≤ k → k ≤ 9 → v.toNat + 1 ≠ 2 ^ (7 * k)) →
    size (v + 1#64) = size v) ∧
  (∀ (v : Word) (k : Nat), 1 ≤ k → k ≤ 9 → v.toNat + 1 = 2 ^ (7 * k) → size (v + 1#64) = size v + 1)

/-- spec/40_size_calc.md R101: command word 0x01, accepted, completes after one step with OK and size(ARG), for every
ARG; RES_VAL is as before. -/
def Obligations.SizeRunCompletesInOneStep : Prop :=
  encode .size = 0x01#8 ∧ ∀ s : State, s.busy = false → (started .size s).itRem = s.arg ∧
    ∃ t, CompletesIn 1 (started .size s) t ∧ t.code = .ok ∧ t.done = true ∧ t.resCnt.toNat = size s.arg ∧
      t.resVal = s.resVal ∧ t.xfail = 0#64 ∧ t.obuf = s.obuf ∧ t.arg = s.arg ∧ t.ibufLen = s.ibufLen

/-! ### ENC -/

/-- spec/41_encoder.md R121: ENC's command word, what acceptance latches for it, and one step of it. -/
def Obligations.EncStepFollowsPseudocode : Prop :=
  encode .enc = 0x02#8 ∧ (∀ s : State, (started .enc s).itRem = s.arg ∧ (started .enc s).itIdx = 0#4) ∧
  ∀ s : State, s.itIdx.toNat ≤ 9 →
    (s.itRem >>> 7 ≠ 0#64 →
      exec .enc s = .next { s with
        obuf := s.obuf.write s.itIdx.toNat (0x80#8 ||| (s.itRem.extractLsb' 0 7).setWidth 8),
        itRem := s.itRem >>> 7, itIdx := s.itIdx + 1#4 }) ∧
    (s.itRem >>> 7 = 0#64 →
      ∃ t, exec .enc s = .next t ∧ EqualUpToIteration t { s with
        obuf := s.obuf.write s.itIdx.toNat ((s.itRem.extractLsb' 0 7).setWidth 8),
        code := .ok, busy := false, done := true, resCnt := BitVec.ofNat 8 (s.itIdx.toNat + 1) })

/-- spec/20_memory.md R53 and spec/10_state.md R29, the frame of ENC: it stores to OBUF[it_idx] and to no other byte,
of OBUF or of IBUF, and leaves ARG, IBUF_LEN, RES_VAL and XFAIL alone. -/
def Obligations.EncStoresOneByte : Prop :=
  ∀ s t : State, exec .enc s = .next t →
    (∃ b, t.obuf.read s.itIdx.toNat = some b ∧ b &&& 0x7F#8 = (s.itRem.extractLsb' 0 7).setWidth 8) ∧
    (∀ a, a ≠ s.itIdx.toNat → t.obuf.read a = s.obuf.read a) ∧ (∀ a, t.ibuf.read a = s.ibuf.read a) ∧
    t.arg = s.arg ∧ t.ibufLen = s.ibufLen ∧ t.resVal = s.resVal ∧ t.xfail = s.xfail ∧ t.source = s.source ∧
    t.schedule = s.schedule ∧ t.hostReads = s.hostReads ∧ t.ibufCap = s.ibufCap ∧ t.failW = s.failW ∧
    t.draws = s.draws ∧ (t.busy = true → t.itOp = s.itOp ∧ t.itAcc = s.itAcc ∧ t.itLen = s.itLen)

/-- spec/41_encoder.md R122, R123 and R124: an accepted ENC completes after exactly size(ARG) steps, with the encoding
of ARG in OBUF[0..k-1], OBUF[k..9] as before, and RES_CNT = k = size(ARG). -/
def Obligations.EncRunWritesTheEncoding : Prop :=
  ∀ s : State, s.busy = false →
    ∃ t, CompletesIn (size s.arg) (started .enc s) t ∧ t.code = .ok ∧ t.done = true ∧
      t.resCnt.toNat = size s.arg ∧ t.resVal = s.resVal ∧ t.xfail = 0#64 ∧
      (∀ i < size s.arg, t.obuf.read i = (wireEncode s.arg)[i]?) ∧
      (∀ i, size s.arg ≤ i → t.obuf.read i = s.obuf.read i) ∧
      t.arg = s.arg ∧ t.ibufLen = s.ibufLen ∧ t.ibuf = s.ibuf ∧ t.source = s.source ∧ t.hostReads = s.hostReads

/-- spec/41_encoder.md R125: of the bytes an accepted ENC has written, the last has no continuation bit and is zero only
for ARG = 0; every other has it. -/
def Obligations.EncodingIsMinimal : Prop :=
  ∀ s : State, s.busy = false →
    ∃ t, CompletesIn (size s.arg) (started .enc s) t ∧
      (∀ i, i + 1 < size s.arg → ∃ b, t.obuf.read i = some b ∧ b.getLsbD 7 = true) ∧
      ∃ b, t.obuf.read (size s.arg - 1) = some b ∧ b.getLsbD 7 = false ∧ (b &&& 0x7F#8 = 0#8 → s.arg = 0#64)

/-! ### DECB -/

/-- spec/42_decoder.md R142 with the order of R150: DECB's command word, what acceptance latches for it, and one step of
it over a byte that can be read (`DecbReadsIbufByTheRules` has the other cases of MemRead). -/
def Obligations.DecbStepFollowsPseudocode : Prop :=
  encode .decb = 0x03#8 ∧
  (∀ s : State, (started .decb s).itLen = s.ibufLen ∧ (started .decb s).itIdx = 0#4 ∧
    (started .decb s).itAcc = 0#64) ∧
  ∀ s : State, s.itIdx.toNat ≤ 9 →
    (s.itLen.toNat ≤ s.itIdx.toNat →
      ∃ t, exec .decb s = .next t ∧ EqualUpToIteration t { s with
        code := .underflow, resVal := 0#64, resCnt := 0x00#8, busy := false, done := true }) ∧
    (∀ b : Byte, s.itIdx.toNat < s.itLen.toNat → s.itIdx.toNat < s.ibufCap →
      s.ibuf.read s.itIdx.toNat = some b →
      (s.itIdx = 9#4 ∧ 0x01#8 < b →
        ∃ t, exec .decb s = .next t ∧ EqualUpToIteration t { s with
          code := .overflow, resVal := 0#64, resCnt := 0x00#8, busy := false, done := true }) ∧
      (¬ (s.itIdx = 9#4 ∧ 0x01#8 < b) → 0x80#8 ≤ b →
        exec .decb s = .next { s with
          itAcc := s.itAcc ||| ((b &&& 0x7F#8).setWidth 64) <<< (7 * s.itIdx.toNat), itIdx := s.itIdx + 1#4 }) ∧
      (b = 0x00#8 → s.itIdx ≠ 0#4 →
        ∃ t, exec .decb s = .next t ∧ EqualUpToIteration t { s with
          code := .notMinimal, resVal := 0#64, resCnt := 0x00#8, busy := false, done := true }) ∧
      (¬ (s.itIdx = 9#4 ∧ 0x01#8 < b) → b < 0x80#8 → ¬ (b = 0x00#8 ∧ s.itIdx ≠ 0#4) →
        ∃ t, exec .decb s = .next t ∧ EqualUpToIteration t { s with
          code := .ok, resVal := s.itAcc ||| ((b &&& 0x7F#8).setWidth 64) <<< (7 * s.itIdx.toNat),
          resCnt := BitVec.ofNat 8 (s.itIdx.toNat + 1), busy := false, done := true }))

/-- spec/20_memory.md R52: a read of IBUF at or past IBUF_CAP has no step (the state stays as it is, with BUSY = 1: log
entry 4), and a read of a byte the host never wrote faults. -/
def Obligations.DecbReadsIbufByTheRules : Prop :=
  ∀ s : State, s.itIdx.toNat < s.itLen.toNat →
    (s.ibufCap ≤ s.itIdx.toNat → exec .decb s = .next s) ∧
    (s.itIdx.toNat < s.ibufCap → s.ibuf.read s.itIdx.toNat = none → exec .decb s = .fault .unwrittenRead)

/-- spec/42_decoder.md R144: DECB reports UNDERFLOW exactly when it_idx has reached it_len, whatever IBUF holds. -/
def Obligations.UnderflowExactlyAtBufferEnd : Prop :=
  ∀ s : State, s.busy = true →
    ((∃ t, exec .decb s = .next t ∧ t.busy = false ∧ t.code = .underflow) ↔ s.itLen.toNat ≤ s.itIdx.toNat)

/-- spec/42_decoder.md R143: DECB and DECS report OVERFLOW exactly on a byte above 0x01 at index 9, whatever its bit
7; and at index 9 a decoder completes or holds, so no byte at index 10 or higher is ever read. -/
def Obligations.OverflowExactlyOnTenthByte : Prop :=
  ∀ s : State, s.busy = true →
    ((∃ t, exec .decb s = .next t ∧ t.busy = false ∧ t.code = .overflow) ↔
      s.itIdx = 9#4 ∧ 9 < s.itLen.toNat ∧ 9 < s.ibufCap ∧ ∃ b, s.ibuf.read 9 = some b ∧ 0x01#8 < b) ∧
    ((∃ t, exec .decs s = .next t ∧ t.busy = false ∧ t.code = .overflow) ↔
      s.itIdx = 9#4 ∧ ∃ b rest, s.source = .byte b :: rest ∧ 0x01#8 < b) ∧
    (s.itIdx = 9#4 → ∀ t, exec .decb s = .next t ∨ exec .decs s = .next t → t.busy = false ∨ t = s)

/-- spec/42_decoder.md R145: NOT_MINIMAL is reported exactly on a terminating 0x00 at an index above 0; and with the
value accumulated through a terminating byte b at index i, size(value) < i + 1 holds if and only if b = 0x00 and
i > 0. -/
def Obligations.NotMinimalIffSizeBelowCount : Prop :=
  (∀ s : State, s.busy = true →
    ((∃ t, exec .decb s = .next t ∧ t.busy = false ∧ t.code = .notMinimal) ↔
      s.itIdx ≠ 0#4 ∧ s.itIdx.toNat < s.itLen.toNat ∧ s.itIdx.toNat < s.ibufCap ∧
        s.ibuf.read s.itIdx.toNat = some 0x00#8) ∧
    ((∃ t, exec .decs s = .next t ∧ t.busy = false ∧ t.code = .notMinimal) ↔
      s.itIdx ≠ 0#4 ∧ ∃ rest, s.source = .byte 0x00#8 :: rest)) ∧
  (∀ (acc : Word) (b : Byte) (i : Nat), i ≤ 9 → acc.toNat < 2 ^ (7 * i) → b < 0x80#8 → (i = 9 → b ≤ 0x01#8) →
    (size (acc ||| ((b &&& 0x7F#8).setWidth 64) <<< (7 * i)) < i + 1 ↔ b = 0x00#8 ∧ 0 < i))

/-- spec/42_decoder.md R146 and R147, spec/70_reset_and_hazards.md R230: an accepted DECB, over a buffer whose bytes
the host has written as far as the decode reads, gives the result of decodeBuf, in one step more than the index at
which it ends, and changes neither OBUF nor IBUF nor the operands. -/
def Obligations.DecbRunMatchesDecodeBuf : Prop :=
  ∀ (s : State) (bytes : List Byte), s.busy = false → bytes.length ≤ s.ibufLen.toNat →
    bytes.length ≤ s.ibufCap → (∀ i b, bytes[i]? = some b → s.ibuf.read i = some b) →
    ((decodeBuf bytes bytes.length).status = .underflow → bytes.length = s.ibufLen.toNat) →
    ∃ t, CompletesIn (decodeIndex bytes + 1) (started .decb s) t ∧ decodeIndex bytes ≤ 9 ∧ t.done = true ∧
      t.code = (decodeBuf bytes bytes.length).status ∧ t.resVal = (decodeBuf bytes bytes.length).value ∧
      t.resCnt.toNat = (decodeBuf bytes bytes.length).count ∧ t.xfail = 0#64 ∧ t.obuf = s.obuf ∧
      t.ibuf = s.ibuf ∧ t.arg = s.arg ∧ t.ibufLen = s.ibufLen ∧ t.source = s.source

/-- spec/41_encoder.md R126: DECB of an encoding gives back the value and its size, for every value, with any bytes
after the encoding. -/
def Obligations.DecbOfEncodingRoundTrips : Prop :=
  ∀ (s : State) (v : Word), s.busy = false → size v ≤ s.ibufLen.toNat → size v ≤ s.ibufCap →
    (∀ i < size v, s.ibuf.read i = (wireEncode v)[i]?) →
    ∃ t, CompletesIn (size v) (started .decb s) t ∧ t.code = .ok ∧ t.resVal = v ∧ t.resCnt.toNat = size v

/-- spec/42_decoder.md R148: a decode that ended at a terminating byte, or in OVERFLOW, is not changed by bytes after
the ones it read. -/
def Obligations.TrailingBytesDoNotMatter : Prop :=
  ∀ bytes more : List Byte, (decodeBuf bytes bytes.length).status ≠ .underflow →
    decodeBuf (bytes ++ more) (bytes ++ more).length = decodeBuf bytes bytes.length

/-- spec/42_decoder.md R146 and R148, for the machine: a step of DECB depends on no byte of IBUF but the one at
it_idx. -/
def Obligations.DecbStepSeesOnlyOneByte : Prop :=
  ∀ (s t : State) (m : Memory), m.read s.itIdx.toNat = s.ibuf.read s.itIdx.toNat → exec .decb s = .next t →
    exec .decb { s with ibuf := m } = .next { t with ibuf := m }

/-- spec/20_memory.md R52: a DECB whose buffer holds only continuation bytes up to IBUF_CAP, with IBUF_LEN beyond it,
holds for ever; it never completes. R52 says a held operation has "no step"; that the machine's step then answers the same
state, so that a run of every length has an end state, is the model's reading (DEDUCED, log entry 4). -/
def Obligations.DecbPastCapacityNeverCompletes : Prop :=
  ∀ s : State, s.busy = false → s.ibufCap ≤ 9 → s.ibufCap < s.ibufLen.toNat →
    (∀ i < s.ibufCap, ∃ b, s.ibuf.read i = some b ∧ 0x80#8 ≤ b) →
    ∀ k, ∃ u : State, Sys2Proof.core.run k (started .decb s) = .next u ∧ u.busy = true

/-! ### The wire format -/

/-- spec/30_encoding.md R75: the valid encodings are exactly the encodings of values, each of one value, and exactly
the sequences that decode with OK when given whole. -/
def Obligations.ValidEncodingsCharacterised : Prop :=
  ∀ bs : List Byte,
    (wireOk bs = true ↔
      (1 ≤ bs.length ∧ bs.length ≤ 10) ∧ (∀ i b, bs[i]? = some b → i + 1 < bs.length → 0x80#8 ≤ b) ∧
        (∀ b, bs[bs.length - 1]? = some b → b < 0x80#8 ∧ (1 < bs.length → b ≠ 0x00#8) ∧
          (bs.length = 10 → b ≤ 0x01#8))) ∧
    (wireOk bs = true ↔ ∃ v, wireEncode v = bs) ∧
    (∀ v, wireEncode v = bs → v = wireValue bs) ∧
    (wireOk bs = true ↔ decodeBuf bs bs.length = ⟨.ok, wireValue bs, bs.length⟩)

/-! ### DECS -/

/-- spec/42_decoder.md R152 and R153: DECS's command word, what acceptance latches for it, and one step of it for each
kind of reply; the reply is taken from the source (spec/20_memory.md R56). -/
def Obligations.DecsStepFollowsPseudocode : Prop :=
  encode .decs = 0x04#8 ∧
  (∀ s : State, (started .decs s).itIdx = 0#4 ∧ (started .decs s).itAcc = 0#64) ∧
  ∀ (s : State) (rest : List Reply), s.itIdx.toNat ≤ 9 →
    (s.source = .endOfInput :: rest → s.itIdx = 0#4 →
      ∃ t, exec .decs s = .next t ∧ EqualUpToIteration t { s with
        source := rest, code := .cleanEnd, resVal := 0#64, resCnt := 0x00#8, busy := false, done := true }) ∧
    (s.source = .endOfInput :: rest → s.itIdx ≠ 0#4 →
      ∃ t, exec .decs s = .next t ∧ EqualUpToIteration t { s with
        source := rest, code := .unexpectedEnd, resVal := 0#64, resCnt := 0x00#8, busy := false, done := true }) ∧
    (∀ c : Word, s.source = .fail c :: rest →
      ∃ t, exec .decs s = .next t ∧ EqualUpToIteration t { s with
        source := rest, xfail := BitVec.ofNat 64 (c.toNat % 2 ^ s.failW), code := .transportFail, resVal := 0#64,
        resCnt := 0x00#8, busy := false, done := true }) ∧
    (∀ b : Byte, s.source = .byte b :: rest →
      (s.itIdx = 9#4 ∧ 0x01#8 < b →
        ∃ t, exec .decs s = .next t ∧ EqualUpToIteration t { s with
          source := rest, code := .overflow, resVal := 0#64, resCnt := 0x00#8, busy := false, done := true }) ∧
      (¬ (s.itIdx = 9#4 ∧ 0x01#8 < b) → 0x80#8 ≤ b →
        exec .decs s = .next { s with
          source := rest, itAcc := s.itAcc ||| ((b &&& 0x7F#8).setWidth 64) <<< (7 * s.itIdx.toNat),
          itIdx := s.itIdx + 1#4 }) ∧
      (b = 0x00#8 → s.itIdx ≠ 0#4 →
        ∃ t, exec .decs s = .next t ∧ EqualUpToIteration t { s with
          source := rest, code := .notMinimal, resVal := 0#64, resCnt := 0x00#8, busy := false, done := true }) ∧
      (¬ (s.itIdx = 9#4 ∧ 0x01#8 < b) → b < 0x80#8 → ¬ (b = 0x00#8 ∧ s.itIdx ≠ 0#4) →
        ∃ t, exec .decs s = .next t ∧ EqualUpToIteration t { s with
          source := rest, code := .ok,
          resVal := s.itAcc ||| ((b &&& 0x7F#8).setWidth 64) <<< (7 * s.itIdx.toNat),
          resCnt := BitVec.ofNat 8 (s.itIdx.toNat + 1), busy := false, done := true }))

/-- spec/42_decoder.md R157: a pull that gets no reply holds DECS, and an operation whose source never gives the replies
it needs never completes, however many steps are taken. R157 says a held operation has "no step"; that the machine's step
then answers the same state is the model's reading (DEDUCED, log entry 4). -/
def Obligations.DecsWithoutReplyNeverCompletes : Prop :=
  (∀ s : State, s.source = [] → exec .decs s = .next s) ∧
  (∀ s : State, s.busy = false → decodeStream s.failW s.source = none →
    ∀ k, ∃ u : State, Sys2Proof.core.run k (started .decs s) = .next u ∧ u.busy = true)

/-- spec/42_decoder.md R154, spec/20_memory.md R56 and R57: an accepted DECS gives the result of decodeStream, in as
many steps as pulls, at most ten, and the source has advanced by exactly those pulls, whether or not there was an
error. -/
def Obligations.DecsRunMatchesDecodeStream : Prop :=
  ∀ (s : State) (r : StreamResult), s.busy = false → decodeStream s.failW s.source = some r →
    ∃ t, CompletesIn r.pulled (started .decs s) t ∧ 1 ≤ r.pulled ∧ r.pulled ≤ 10 ∧ t.done = true ∧
      t.code = r.result.status ∧ t.resVal = r.result.value ∧ t.resCnt.toNat = r.result.count ∧
      t.xfail = r.xfail ∧ t.source = s.source.drop r.pulled ∧ (t.code ≠ .ok → t.resCnt = 0x00#8) ∧ t.obuf = s.obuf ∧ t.ibuf = s.ibuf ∧
      t.arg = s.arg ∧ t.ibufLen = s.ibufLen

/-- spec/42_decoder.md R154, its last sentence: for a source that replies with the bytes of a buffer and then END,
decodeStream gives decodeBuf's result, except that UNDERFLOW becomes CLEAN_END or UNEXPECTED_END. -/
def Obligations.StreamDecodeAgreesWithBufferDecode : Prop :=
  ∀ (failW : Nat) (bs : List Byte),
    ∃ r, decodeStream failW (bs.map .byte ++ [.endOfInput]) = some r ∧ r.xfail = 0#64 ∧
      ((decodeBuf bs bs.length).status ≠ .underflow → r.result = decodeBuf bs bs.length) ∧
      ((decodeBuf bs bs.length).status = .underflow →
        r.result = .error (if bs = [] then .cleanEnd else .unexpectedEnd))

/-! ### Both decoders -/

/-- spec/42_decoder.md R149: every error result of a decoder is RES_VAL = 0 and RES_CNT = 0. -/
def Obligations.DecoderErrorsReportZero : Prop :=
  ∀ s t : State, s.busy = true → exec .decb s = .next t ∨ exec .decs s = .next t → t.busy = false →
    t.code ≠ .ok → t.resVal = 0#64 ∧ t.resCnt = 0x00#8

/-- spec/42_decoder.md R156: DECS never reports UNDERFLOW; DECB never reports CLEAN_END, UNEXPECTED_END or
TRANSPORT_FAIL. -/
def Obligations.DecoderStatusesKeptApart : Prop :=
  ∀ s t : State, s.busy = true → t.busy = false →
    (exec .decs s = .next t → t.code ≠ .underflow) ∧
    (exec .decb s = .next t → t.code ≠ .cleanEnd ∧ t.code ≠ .unexpectedEnd ∧ t.code ≠ .transportFail)

/-- spec/10_state.md R33 and spec/20_memory.md R52, the frame of SIZE, DECB and DECS: no byte of OBUF or IBUF changes,
nor ARG or IBUF_LEN; SIZE keeps RES_VAL, and SIZE and DECB keep the source and XFAIL; while the operation goes on, it_op,
it_len and it_rem stay. -/
def Obligations.SizeAndDecodersStoreNothing : Prop :=
  ∀ (s t : State) (i : Instr), i ≠ .enc → exec i s = .next t →
    (∀ a, t.obuf.read a = s.obuf.read a) ∧ (∀ a, t.ibuf.read a = s.ibuf.read a) ∧ t.arg = s.arg ∧
    t.ibufLen = s.ibufLen ∧ t.schedule = s.schedule ∧ t.hostReads = s.hostReads ∧ t.ibufCap = s.ibufCap ∧
    t.failW = s.failW ∧ t.draws = s.draws ∧ (i = .size → t.resVal = s.resVal) ∧
    (i ≠ .decs → t.source = s.source ∧ t.xfail = s.xfail) ∧
    (t.busy = true → t.itOp = s.itOp ∧ t.itLen = s.itLen ∧ t.itRem = s.itRem)

/-! ### Whole-machine rules -/

/-- The invariant holds after reset (spec/10_state.md R38). -/
def Obligations.ResetMeetsTheInvariant : Prop := Inv State.reset

/-- The invariant is kept by every step, from every state that meets it: canonical OBUF and IBUF (R29, R52), BUSY and
DONE apart (R25), CODE 0 while BUSY (R25), counts in 0..10 (R27), zero results on error (R181), XFAIL only after
TRANSPORT_FAIL and of FAIL_W bits (R28, R222), a legal it_op, it_idx at most 9 (R35), and the loops' bounds (R124,
R125, R142). -/
def Obligations.EveryStepKeepsTheInvariant : Prop :=
  ∀ s t : State, Inv s → step s = .next t → Inv t

/-- spec/10_state.md R22 and R23: no operation writes ARG or IBUF_LEN; only the host and reset do. -/
def Obligations.OperandsChangeOnlyByHostOrReset : Prop :=
  ∀ s t : State, step s = .next t →
    (t.arg ≠ s.arg →
      (∃ v rest, s.schedule = .wr 0x10 64 v :: rest ∧ s.busy = false ∧ t.arg = v) ∨
      (∃ rest, s.schedule = .reset :: rest ∧ t.arg = 0#64)) ∧
    (t.ibufLen ≠ s.ibufLen →
      (∃ v rest, s.schedule = .wr 0x18 64 v :: rest ∧ s.busy = false ∧ t.ibufLen = v) ∨
      (∃ rest, s.schedule = .reset :: rest ∧ t.ibufLen = 0#64))

/-- spec/10_state.md R28: acceptance clears XFAIL, a DECS that completes with TRANSPORT_FAIL sets it to the source's
code, reset clears it (R38), and no other event writes it. -/
def Obligations.XfailChangesOnlyByItsRules : Prop :=
  ∀ s t : State, step s = .next t → t.xfail ≠ s.xfail →
    (∃ v rest, s.schedule = .wr 0x00 8 v :: rest ∧ t.xfail = 0#64) ∨
    (∃ rest, s.schedule = .reset :: rest ∧ t.xfail = 0#64) ∨
    (∃ c rest, s.busy = true ∧ s.itOp = 0x4#4 ∧ s.source = .fail c :: rest ∧ t.busy = false ∧
      t.code = .transportFail ∧ t.xfail.toNat = c.toNat % 2 ^ s.failW)

/-- spec/10_state.md R29: only ENC writes OBUF, at it_idx; a reset may leave a byte without a value (R38). -/
def Obligations.ObufChangesOnlyByEncOrReset : Prop :=
  ∀ (s t : State) (a : Nat), step s = .next t → t.obuf.read a ≠ s.obuf.read a →
    (∃ rest, s.schedule = .reset :: rest ∧ t.obuf.read a = none) ∨
    (s.busy = true ∧ s.itOp = 0x2#4 ∧ a = s.itIdx.toNat ∧ a < 10)

/-- spec/20_memory.md R52 and R54: the block only reads IBUF; only the host's stores change it, inside IBUF_CAP. -/
def Obligations.IbufChangesOnlyByHost : Prop :=
  ∀ (s t : State) (a : Nat), step s = .next t → t.ibuf.read a ≠ s.ibuf.read a →
    ∃ b rest, s.schedule = .ibuf a b :: rest ∧ a < s.ibufCap ∧ t.ibuf.read a = some b

/-- spec/20_memory.md R60 and R63: results are written together at completion: a step after which BUSY is still 1
leaves CODE, DONE, RES_VAL, RES_CNT and XFAIL as they were. -/
def Obligations.ResultsAppearOnlyAtCompletion : Prop :=
  ∀ s t : State, step s = .next t → s.busy = true → t.busy = true →
    t.code = s.code ∧ t.done = s.done ∧ t.resVal = s.resVal ∧ t.resCnt = s.resCnt ∧ t.xfail = s.xfail

/-- spec/70_reset_and_hazards.md R212: "Operands written after the command write are not seen": a step of an operation
does not depend on ARG or IBUF_LEN. -/
def Obligations.LatchedOperandsAreNotReread : Prop :=
  ∀ (i : Instr) (s t : State) (a l : Word), exec i s = .next t →
    exec i { s with arg := a, ibufLen := l } = .next { t with arg := a, ibufLen := l }

/-- spec/42_decoder.md R149 and spec/10_state.md R32: the iteration state is invisible to the host: what a host read
returns, or that it stops, does not depend on it; but a read of ARG or IBUF_LEN while BUSY = 1 depends on whether the
command the host wrote was DECS, which R157 makes it do (log entry 10). -/
def Obligations.IterationStateIsInvisible : Prop :=
  ∀ (s : State) (op idx : BitVec 4) (r a l : Word) (off bits : Nat) (rest : List Turn),
    s.schedule = .rd off bits :: rest →
    (s.busy = true → off = 0x10 ∨ off = 0x18 → (op = 0x4#4 ↔ s.itOp = 0x4#4)) →
    (∀ t, step s = .next t →
      step { s with itOp := op, itIdx := idx, itRem := r, itAcc := a, itLen := l } =
        .next { t with itOp := op, itIdx := idx, itRem := r, itAcc := a, itLen := l }) ∧
    (∀ f, step s = .fault f →
      step { s with itOp := op, itIdx := idx, itRem := r, itAcc := a, itLen := l } = .fault f) ∧
    (∀ f, step s = .refused f →
      step { s with itOp := op, itIdx := idx, itRem := r, itAcc := a, itLen := l } = .refused f)

/-- spec/20_memory.md R68: instances share no state: a step of one is its own step, and leaves every other as it
was. -/
def Obligations.InstancesAreIndependent : Prop :=
  ∀ (k : Nat) (sys : List State) (s t : State), sys[k]? = some s → step s = .next t →
    ∃ sys', stepInstance k sys = .next sys' ∧ sys'[k]? = some t ∧ ∀ j, j ≠ k → sys'[j]? = sys[j]?

/-- spec/42_decoder.md R157: under a held DECS the host may only read STATUS (by `wait` too) or reset the block; every
register write, every other register read and every IBUF store is refused, and BUSY stays 1 until the reset. That the DECS
is held whenever its source has no reply ready is the model's reading (DEDUCED, log entry 10); that a `wait` leaves the
state as it is too (DEDUCED and DESIGN CHOICE, log entries 4 and 14). -/
def Obligations.HeldDecsAdmitsOnlyStatusAndReset : Prop :=
  ∀ (s : State) (rest : List Turn), s.busy = true → s.itOp = 0x4#4 → s.source = [] →
    (∀ off bits v, s.schedule = .wr off bits v :: rest → step s = .refused .badAccess) ∧
    (∀ off bits, s.schedule = .rd off bits :: rest →
      (off = 0x08 ∧ bits = 8 → ∃ t, step s = .next t ∧ t.busy = true) ∧
      (¬ (off = 0x08 ∧ bits = 8) → step s = .refused .badAccess)) ∧
    (∀ i b, s.schedule = .ibuf i b :: rest → step s = .refused .badAccess) ∧
    (s.schedule = .wait :: rest → step s = .next s) ∧
    (s.schedule = .reset :: rest → ∃ t, step s = .next t ∧ t.busy = false)
end

