-- ==== Sys2Proof/Laws/Memory.lean ====
section
/-! SUPPORT. The laws of the byte stores: read after write, and the canonical form that every write keeps. -/

namespace Sys2Proof.Machine

@[simp] theorem Memory.read_nil (i : Nat) : Memory.read [] i = none := rfl

theorem Memory.read_cons (a i : Nat) (x : Byte) (m : Memory) :
    Memory.read ((a, x) :: m) i = if a = i then some x else m.read i := rfl

@[simp] theorem Memory.read_write_same (m : Memory) (i : Nat) (b : Byte) :
    (m.write i b).read i = some b := by
  induction m with
  | nil => simp [Memory.write, Memory.read]
  | cons p m ih =>
    obtain ⟨a, x⟩ := p
    simp only [Memory.write]
    split
    · simp [Memory.read]
    · split
      · simp [Memory.read]
      · rw [Memory.read_cons, if_neg (by omega), ih]

theorem Memory.read_write_other (m : Memory) {i j : Nat} (b : Byte) (h : i ≠ j) :
    (m.write i b).read j = m.read j := by
  induction m with
  | nil => simp [Memory.write, Memory.read, h]
  | cons p m ih =>
    obtain ⟨a, x⟩ := p
    simp only [Memory.write]
    split
    · simp [Memory.read_cons, h]
    · split
      · rename_i h₁ h₂
        subst h₂
        simp [Memory.read_cons, h]
      · simp [Memory.read_cons, ih]

/-- The offsets of a written store are those of the store and the written one. -/
theorem Memory.mem_write {m : Memory} {i : Nat} {b : Byte} {p : Host.Cell}
    (h : p ∈ m.write i b) : p = (i, b) ∨ p ∈ m := by
  induction m with
  | nil => simpa [Memory.write] using h
  | cons q m ih =>
    obtain ⟨a, x⟩ := q
    simp only [Memory.write] at h
    split at h
    · simpa using h
    · split at h
      · rcases List.mem_cons.1 h with h | h
        · exact .inl h
        · exact .inr (List.mem_cons_of_mem _ h)
      · rcases List.mem_cons.1 h with h | h
        · exact .inr (h ▸ List.mem_cons_self)
        · exact (ih h).imp_right (List.mem_cons_of_mem _)

/-- Every write keeps the canonical form. -/
theorem Memory.wf_write {m : Memory} (h : m.wf) (i : Nat) (b : Byte) : (m.write i b).wf := by
  induction m with
  | nil => simp [Memory.write, Memory.wf]
  | cons p m ih =>
    obtain ⟨a, x⟩ := p
    obtain ⟨hp, hm⟩ := List.pairwise_cons.1 h
    simp only [Memory.write]
    split
    · rename_i hlt
      refine List.pairwise_cons.2 ⟨fun q hq => ?_, h⟩
      rcases List.mem_cons.1 hq with rfl | hq
      · exact hlt
      · exact Nat.lt_trans hlt (hp q hq)
    · split
      · rename_i heq
        exact List.pairwise_cons.2 ⟨fun q hq => heq ▸ hp q hq, hm⟩
      · refine List.pairwise_cons.2 ⟨fun q hq => ?_, ih hm⟩
        rcases Memory.mem_write hq with rfl | hq
        · show a < i
          omega
        · exact hp q hq

/-- Below `n` the byte is the store's; from `n` on there is none. -/
theorem Memory.read_upTo (m : Memory) (n i : Nat) :
    (m.upTo n).read i = if i < n then m.read i else none := by
  induction m with
  | nil => simp [Memory.upTo]
  | cons p m ih =>
    obtain ⟨a, x⟩ := p
    by_cases ha : a < n
    · rw [show Memory.upTo ((a, x) :: m) n = (a, x) :: Memory.upTo m n by simp [Memory.upTo, ha], Memory.read_cons,
        Memory.read_cons, ih]
      by_cases h : a = i
      · subst h
        simp [ha]
      · simp [h]
    · rw [show Memory.upTo ((a, x) :: m) n = Memory.upTo m n by simp [Memory.upTo, ha], Memory.read_cons, ih]
      by_cases h : a = i
      · subst h
        simp [ha]
      · simp [h]

theorem Memory.wf_upTo {m : Memory} (h : m.wf) (n : Nat) : (m.upTo n).wf := List.Pairwise.filter _ h

theorem Memory.below_upTo {m : Memory} {k : Nat} (h : m.below k) (n : Nat) : (m.upTo n).below k :=
  fun p hp => h p (List.mem_filter.1 hp).1

theorem Memory.wf_nil : Memory.wf [] := List.Pairwise.nil

theorem Memory.below_nil (n : Nat) : Memory.below [] n := by simp [Memory.below]

/-- A write below `n` keeps every offset below `n`. -/
theorem Memory.below_write {m : Memory} {n i : Nat} (h : m.below n) (hi : i < n) (b : Byte) :
    (m.write i b).below n := by
  intro p hp
  rcases Memory.mem_write hp with rfl | hp
  · exact hi
  · exact h p hp

/-- An offset past every listed one reads as none. -/
theorem Memory.read_none_of_below {m : Memory} {n i : Nat} (h : m.below n) (hi : n ≤ i) :
    m.read i = none := by
  induction m with
  | nil => rfl
  | cons p m ih =>
    obtain ⟨a, x⟩ := p
    have ha : a < n := h (a, x) List.mem_cons_self
    rw [Memory.read_cons, if_neg (by omega)]
    exact ih fun q hq => h q (List.mem_cons_of_mem _ hq)

/-- Canonical stores that read alike are equal. -/
theorem Memory.eq_of_read_eq {m m' : Memory} (h : m.wf) (h' : m'.wf)
    (hr : ∀ i, m.read i = m'.read i) : m = m' := by
  have none_below : ∀ {a : Nat} {m : Memory}, (∀ q ∈ m, a < q.1) → m.read a = none := by
    intro a m
    induction m with
    | nil => intro _; rfl
    | cons q m ih =>
      intro hq
      have := hq q List.mem_cons_self
      rw [Memory.read_cons, if_neg (by omega)]
      exact ih fun r hr => hq r (List.mem_cons_of_mem _ hr)
  induction m generalizing m' with
  | nil =>
    cases m' with
    | nil => rfl
    | cons p m' =>
      have := hr p.1
      rw [Memory.read_nil, Memory.read_cons, if_pos rfl] at this
      cases this
  | cons p m ih =>
    obtain ⟨hp, hm⟩ := List.pairwise_cons.1 h
    cases m' with
    | nil =>
      have := hr p.1
      rw [Memory.read_nil, Memory.read_cons, if_pos rfl] at this
      cases this
    | cons p' m' =>
      obtain ⟨hp', hm'⟩ := List.pairwise_cons.1 h'
      obtain ⟨a, x⟩ := p
      obtain ⟨a', x'⟩ := p'
      have key : a = a' := by
        rcases Nat.lt_trichotomy a a' with hlt | heq | hlt
        · have h₁ := hr a
          rw [Memory.read_cons, if_pos rfl, Memory.read_cons, if_neg (by omega),
            none_below fun q hq => Nat.lt_trans hlt (hp' q hq)] at h₁
          exact absurd h₁ (by simp)
        · exact heq
        · have h₁ := hr a'
          rw [Memory.read_cons, if_neg (by omega), Memory.read_cons, if_pos rfl,
            none_below fun q hq => Nat.lt_trans hlt (hp q hq)] at h₁
          exact absurd h₁.symm (by simp)
      subst key
      have hx : x = x' := by simpa [Memory.read_cons] using hr a
      subst hx
      congr 1
      refine ih hm hm' fun i => ?_
      by_cases hi : a = i
      · subst hi
        rw [none_below hp, none_below hp']
      · simpa [Memory.read_cons, hi] using hr i

end Sys2Proof.Machine
end

