-- ==== Sys2Proof/Laws/State.lean ====
section
/-! SUPPORT. What each named update of State does to each field: true by definition, for simp. -/

namespace Sys2Proof.Machine

/-! ### flagsAtAcceptance -/

@[simp] theorem flagsAtAcceptance_code (s : State) : (flagsAtAcceptance s).code = .ok := rfl
@[simp] theorem flagsAtAcceptance_busy (s : State) : (flagsAtAcceptance s).busy = true := rfl
@[simp] theorem flagsAtAcceptance_done (s : State) : (flagsAtAcceptance s).done = false := rfl
@[simp] theorem flagsAtAcceptance_arg (s : State) : (flagsAtAcceptance s).arg = s.arg := rfl
@[simp] theorem flagsAtAcceptance_ibufLen (s : State) : (flagsAtAcceptance s).ibufLen = s.ibufLen := rfl
@[simp] theorem flagsAtAcceptance_resVal (s : State) : (flagsAtAcceptance s).resVal = s.resVal := rfl
@[simp] theorem flagsAtAcceptance_resCnt (s : State) : (flagsAtAcceptance s).resCnt = s.resCnt := rfl
@[simp] theorem flagsAtAcceptance_xfail (s : State) : (flagsAtAcceptance s).xfail = s.xfail := rfl
@[simp] theorem flagsAtAcceptance_obuf (s : State) : (flagsAtAcceptance s).obuf = s.obuf := rfl
@[simp] theorem flagsAtAcceptance_itOp (s : State) : (flagsAtAcceptance s).itOp = s.itOp := rfl
@[simp] theorem flagsAtAcceptance_itIdx (s : State) : (flagsAtAcceptance s).itIdx = s.itIdx := rfl
@[simp] theorem flagsAtAcceptance_itRem (s : State) : (flagsAtAcceptance s).itRem = s.itRem := rfl
@[simp] theorem flagsAtAcceptance_itAcc (s : State) : (flagsAtAcceptance s).itAcc = s.itAcc := rfl
@[simp] theorem flagsAtAcceptance_itLen (s : State) : (flagsAtAcceptance s).itLen = s.itLen := rfl
@[simp] theorem flagsAtAcceptance_ibuf (s : State) : (flagsAtAcceptance s).ibuf = s.ibuf := rfl
@[simp] theorem flagsAtAcceptance_ibufCap (s : State) : (flagsAtAcceptance s).ibufCap = s.ibufCap := rfl
@[simp] theorem flagsAtAcceptance_failW (s : State) : (flagsAtAcceptance s).failW = s.failW := rfl
@[simp] theorem flagsAtAcceptance_source (s : State) : (flagsAtAcceptance s).source = s.source := rfl
@[simp] theorem flagsAtAcceptance_schedule (s : State) : (flagsAtAcceptance s).schedule = s.schedule := rfl
@[simp] theorem flagsAtAcceptance_hostReads (s : State) : (flagsAtAcceptance s).hostReads = s.hostReads := rfl
@[simp] theorem flagsAtAcceptance_draws (s : State) : (flagsAtAcceptance s).draws = s.draws := rfl

/-! ### flagsAtCompletion -/

@[simp] theorem flagsAtCompletion_code (c : StatusCode) (s : State) : (flagsAtCompletion c s).code = c := rfl
@[simp] theorem flagsAtCompletion_busy (c : StatusCode) (s : State) : (flagsAtCompletion c s).busy = false := rfl
@[simp] theorem flagsAtCompletion_done (c : StatusCode) (s : State) : (flagsAtCompletion c s).done = true := rfl
@[simp] theorem flagsAtCompletion_arg (c : StatusCode) (s : State) : (flagsAtCompletion c s).arg = s.arg := rfl
@[simp] theorem flagsAtCompletion_ibufLen (c : StatusCode) (s : State) : (flagsAtCompletion c s).ibufLen = s.ibufLen := rfl
@[simp] theorem flagsAtCompletion_resVal (c : StatusCode) (s : State) : (flagsAtCompletion c s).resVal = s.resVal := rfl
@[simp] theorem flagsAtCompletion_resCnt (c : StatusCode) (s : State) : (flagsAtCompletion c s).resCnt = s.resCnt := rfl
@[simp] theorem flagsAtCompletion_xfail (c : StatusCode) (s : State) : (flagsAtCompletion c s).xfail = s.xfail := rfl
@[simp] theorem flagsAtCompletion_obuf (c : StatusCode) (s : State) : (flagsAtCompletion c s).obuf = s.obuf := rfl
@[simp] theorem flagsAtCompletion_itOp (c : StatusCode) (s : State) : (flagsAtCompletion c s).itOp = s.itOp := rfl
@[simp] theorem flagsAtCompletion_itIdx (c : StatusCode) (s : State) : (flagsAtCompletion c s).itIdx = s.itIdx := rfl
@[simp] theorem flagsAtCompletion_itRem (c : StatusCode) (s : State) : (flagsAtCompletion c s).itRem = s.itRem := rfl
@[simp] theorem flagsAtCompletion_itAcc (c : StatusCode) (s : State) : (flagsAtCompletion c s).itAcc = s.itAcc := rfl
@[simp] theorem flagsAtCompletion_itLen (c : StatusCode) (s : State) : (flagsAtCompletion c s).itLen = s.itLen := rfl
@[simp] theorem flagsAtCompletion_ibuf (c : StatusCode) (s : State) : (flagsAtCompletion c s).ibuf = s.ibuf := rfl
@[simp] theorem flagsAtCompletion_ibufCap (c : StatusCode) (s : State) : (flagsAtCompletion c s).ibufCap = s.ibufCap := rfl
@[simp] theorem flagsAtCompletion_failW (c : StatusCode) (s : State) : (flagsAtCompletion c s).failW = s.failW := rfl
@[simp] theorem flagsAtCompletion_source (c : StatusCode) (s : State) : (flagsAtCompletion c s).source = s.source := rfl
@[simp] theorem flagsAtCompletion_schedule (c : StatusCode) (s : State) : (flagsAtCompletion c s).schedule = s.schedule := rfl
@[simp] theorem flagsAtCompletion_hostReads (c : StatusCode) (s : State) : (flagsAtCompletion c s).hostReads = s.hostReads := rfl
@[simp] theorem flagsAtCompletion_draws (c : StatusCode) (s : State) : (flagsAtCompletion c s).draws = s.draws := rfl

/-! ### latchOperands -/

@[simp] theorem latchOperands_code (op : BitVec 4) (s : State) : (latchOperands op s).code = s.code := rfl
@[simp] theorem latchOperands_busy (op : BitVec 4) (s : State) : (latchOperands op s).busy = s.busy := rfl
@[simp] theorem latchOperands_done (op : BitVec 4) (s : State) : (latchOperands op s).done = s.done := rfl
@[simp] theorem latchOperands_arg (op : BitVec 4) (s : State) : (latchOperands op s).arg = s.arg := rfl
@[simp] theorem latchOperands_ibufLen (op : BitVec 4) (s : State) : (latchOperands op s).ibufLen = s.ibufLen := rfl
@[simp] theorem latchOperands_resVal (op : BitVec 4) (s : State) : (latchOperands op s).resVal = s.resVal := rfl
@[simp] theorem latchOperands_resCnt (op : BitVec 4) (s : State) : (latchOperands op s).resCnt = s.resCnt := rfl
@[simp] theorem latchOperands_xfail (op : BitVec 4) (s : State) : (latchOperands op s).xfail = s.xfail := rfl
@[simp] theorem latchOperands_obuf (op : BitVec 4) (s : State) : (latchOperands op s).obuf = s.obuf := rfl
@[simp] theorem latchOperands_itOp (op : BitVec 4) (s : State) : (latchOperands op s).itOp = op := rfl
@[simp] theorem latchOperands_itIdx (op : BitVec 4) (s : State) : (latchOperands op s).itIdx = 0#4 := rfl
@[simp] theorem latchOperands_itRem (op : BitVec 4) (s : State) : (latchOperands op s).itRem = s.arg := rfl
@[simp] theorem latchOperands_itAcc (op : BitVec 4) (s : State) : (latchOperands op s).itAcc = 0#64 := rfl
@[simp] theorem latchOperands_itLen (op : BitVec 4) (s : State) : (latchOperands op s).itLen = s.ibufLen := rfl
@[simp] theorem latchOperands_ibuf (op : BitVec 4) (s : State) : (latchOperands op s).ibuf = s.ibuf := rfl
@[simp] theorem latchOperands_ibufCap (op : BitVec 4) (s : State) : (latchOperands op s).ibufCap = s.ibufCap := rfl
@[simp] theorem latchOperands_failW (op : BitVec 4) (s : State) : (latchOperands op s).failW = s.failW := rfl
@[simp] theorem latchOperands_source (op : BitVec 4) (s : State) : (latchOperands op s).source = s.source := rfl
@[simp] theorem latchOperands_schedule (op : BitVec 4) (s : State) : (latchOperands op s).schedule = s.schedule := rfl
@[simp] theorem latchOperands_hostReads (op : BitVec 4) (s : State) : (latchOperands op s).hostReads = s.hostReads := rfl
@[simp] theorem latchOperands_draws (op : BitVec 4) (s : State) : (latchOperands op s).draws = s.draws := rfl

/-! ### complete -/

@[simp] theorem complete_code (c : StatusCode) (v : Option Word) (n : BitVec 4) (s : State) : (complete c v n s).code = c := rfl
@[simp] theorem complete_busy (c : StatusCode) (v : Option Word) (n : BitVec 4) (s : State) : (complete c v n s).busy = false := rfl
@[simp] theorem complete_done (c : StatusCode) (v : Option Word) (n : BitVec 4) (s : State) : (complete c v n s).done = true := rfl
@[simp] theorem complete_arg (c : StatusCode) (v : Option Word) (n : BitVec 4) (s : State) : (complete c v n s).arg = s.arg := rfl
@[simp] theorem complete_ibufLen (c : StatusCode) (v : Option Word) (n : BitVec 4) (s : State) : (complete c v n s).ibufLen = s.ibufLen := rfl
@[simp] theorem complete_resVal (c : StatusCode) (v : Option Word) (n : BitVec 4) (s : State) : (complete c v n s).resVal = v.getD s.resVal := rfl
@[simp] theorem complete_resCnt (c : StatusCode) (v : Option Word) (n : BitVec 4) (s : State) : (complete c v n s).resCnt = n.setWidth 8 := rfl
@[simp] theorem complete_xfail (c : StatusCode) (v : Option Word) (n : BitVec 4) (s : State) : (complete c v n s).xfail = s.xfail := rfl
@[simp] theorem complete_obuf (c : StatusCode) (v : Option Word) (n : BitVec 4) (s : State) : (complete c v n s).obuf = s.obuf := rfl
@[simp] theorem complete_itOp (c : StatusCode) (v : Option Word) (n : BitVec 4) (s : State) : (complete c v n s).itOp = s.itOp := rfl
@[simp] theorem complete_itIdx (c : StatusCode) (v : Option Word) (n : BitVec 4) (s : State) : (complete c v n s).itIdx = s.itIdx := rfl
@[simp] theorem complete_itRem (c : StatusCode) (v : Option Word) (n : BitVec 4) (s : State) : (complete c v n s).itRem = s.itRem := rfl
@[simp] theorem complete_itAcc (c : StatusCode) (v : Option Word) (n : BitVec 4) (s : State) : (complete c v n s).itAcc = s.itAcc := rfl
@[simp] theorem complete_itLen (c : StatusCode) (v : Option Word) (n : BitVec 4) (s : State) : (complete c v n s).itLen = s.itLen := rfl
@[simp] theorem complete_ibuf (c : StatusCode) (v : Option Word) (n : BitVec 4) (s : State) : (complete c v n s).ibuf = s.ibuf := rfl
@[simp] theorem complete_ibufCap (c : StatusCode) (v : Option Word) (n : BitVec 4) (s : State) : (complete c v n s).ibufCap = s.ibufCap := rfl
@[simp] theorem complete_failW (c : StatusCode) (v : Option Word) (n : BitVec 4) (s : State) : (complete c v n s).failW = s.failW := rfl
@[simp] theorem complete_source (c : StatusCode) (v : Option Word) (n : BitVec 4) (s : State) : (complete c v n s).source = s.source := rfl
@[simp] theorem complete_schedule (c : StatusCode) (v : Option Word) (n : BitVec 4) (s : State) : (complete c v n s).schedule = s.schedule := rfl
@[simp] theorem complete_hostReads (c : StatusCode) (v : Option Word) (n : BitVec 4) (s : State) : (complete c v n s).hostReads = s.hostReads := rfl
@[simp] theorem complete_draws (c : StatusCode) (v : Option Word) (n : BitVec 4) (s : State) : (complete c v n s).draws = s.draws := rfl

/-! ### raise -/

@[simp] theorem raise_code (c : StatusCode) (s : State) : (raise c s).code = c := rfl
@[simp] theorem raise_busy (c : StatusCode) (s : State) : (raise c s).busy = false := rfl
@[simp] theorem raise_done (c : StatusCode) (s : State) : (raise c s).done = true := rfl
@[simp] theorem raise_arg (c : StatusCode) (s : State) : (raise c s).arg = s.arg := rfl
@[simp] theorem raise_ibufLen (c : StatusCode) (s : State) : (raise c s).ibufLen = s.ibufLen := rfl
@[simp] theorem raise_resVal (c : StatusCode) (s : State) : (raise c s).resVal = 0#64 := rfl
@[simp] theorem raise_resCnt (c : StatusCode) (s : State) : (raise c s).resCnt = 0x00#8 := rfl
@[simp] theorem raise_xfail (c : StatusCode) (s : State) : (raise c s).xfail = s.xfail := rfl
@[simp] theorem raise_obuf (c : StatusCode) (s : State) : (raise c s).obuf = s.obuf := rfl
@[simp] theorem raise_itOp (c : StatusCode) (s : State) : (raise c s).itOp = s.itOp := rfl
@[simp] theorem raise_itIdx (c : StatusCode) (s : State) : (raise c s).itIdx = s.itIdx := rfl
@[simp] theorem raise_itRem (c : StatusCode) (s : State) : (raise c s).itRem = s.itRem := rfl
@[simp] theorem raise_itAcc (c : StatusCode) (s : State) : (raise c s).itAcc = s.itAcc := rfl
@[simp] theorem raise_itLen (c : StatusCode) (s : State) : (raise c s).itLen = s.itLen := rfl
@[simp] theorem raise_ibuf (c : StatusCode) (s : State) : (raise c s).ibuf = s.ibuf := rfl
@[simp] theorem raise_ibufCap (c : StatusCode) (s : State) : (raise c s).ibufCap = s.ibufCap := rfl
@[simp] theorem raise_failW (c : StatusCode) (s : State) : (raise c s).failW = s.failW := rfl
@[simp] theorem raise_source (c : StatusCode) (s : State) : (raise c s).source = s.source := rfl
@[simp] theorem raise_schedule (c : StatusCode) (s : State) : (raise c s).schedule = s.schedule := rfl
@[simp] theorem raise_hostReads (c : StatusCode) (s : State) : (raise c s).hostReads = s.hostReads := rfl
@[simp] theorem raise_draws (c : StatusCode) (s : State) : (raise c s).draws = s.draws := rfl

/-! ### resetBlock -/

@[simp] theorem resetBlock_code (s : State) : (resetBlock s).code = .ok := rfl
@[simp] theorem resetBlock_busy (s : State) : (resetBlock s).busy = false := rfl
@[simp] theorem resetBlock_done (s : State) : (resetBlock s).done = false := rfl
@[simp] theorem resetBlock_arg (s : State) : (resetBlock s).arg = 0#64 := rfl
@[simp] theorem resetBlock_ibufLen (s : State) : (resetBlock s).ibufLen = 0#64 := rfl
@[simp] theorem resetBlock_resVal (s : State) : (resetBlock s).resVal = 0#64 := rfl
@[simp] theorem resetBlock_resCnt (s : State) : (resetBlock s).resCnt = 0x00#8 := rfl
@[simp] theorem resetBlock_xfail (s : State) : (resetBlock s).xfail = 0#64 := rfl
@[simp] theorem resetBlock_obuf (s : State) : (resetBlock s).obuf = obufAtReset s := rfl
@[simp] theorem resetBlock_itOp (s : State) : (resetBlock s).itOp = 0#4 := rfl
@[simp] theorem resetBlock_itIdx (s : State) : (resetBlock s).itIdx = 0#4 := rfl
@[simp] theorem resetBlock_itRem (s : State) : (resetBlock s).itRem = 0#64 := rfl
@[simp] theorem resetBlock_itAcc (s : State) : (resetBlock s).itAcc = 0#64 := rfl
@[simp] theorem resetBlock_itLen (s : State) : (resetBlock s).itLen = 0#64 := rfl
@[simp] theorem resetBlock_ibuf (s : State) : (resetBlock s).ibuf = s.ibuf := rfl
@[simp] theorem resetBlock_ibufCap (s : State) : (resetBlock s).ibufCap = s.ibufCap := rfl
@[simp] theorem resetBlock_failW (s : State) : (resetBlock s).failW = s.failW := rfl
@[simp] theorem resetBlock_source (s : State) : (resetBlock s).source = sourceAtReset s := rfl
@[simp] theorem resetBlock_schedule (s : State) : (resetBlock s).schedule = s.schedule := rfl
@[simp] theorem resetBlock_hostReads (s : State) : (resetBlock s).hostReads = s.hostReads := rfl
@[simp] theorem resetBlock_draws (s : State) : (resetBlock s).draws = if running .decs s then s.draws + 1 else s.draws := rfl

/-! ### seen -/

@[simp] theorem seen_code (v : Word) (s : State) : (seen v s).code = s.code := rfl
@[simp] theorem seen_busy (v : Word) (s : State) : (seen v s).busy = s.busy := rfl
@[simp] theorem seen_done (v : Word) (s : State) : (seen v s).done = s.done := rfl
@[simp] theorem seen_arg (v : Word) (s : State) : (seen v s).arg = s.arg := rfl
@[simp] theorem seen_ibufLen (v : Word) (s : State) : (seen v s).ibufLen = s.ibufLen := rfl
@[simp] theorem seen_resVal (v : Word) (s : State) : (seen v s).resVal = s.resVal := rfl
@[simp] theorem seen_resCnt (v : Word) (s : State) : (seen v s).resCnt = s.resCnt := rfl
@[simp] theorem seen_xfail (v : Word) (s : State) : (seen v s).xfail = s.xfail := rfl
@[simp] theorem seen_obuf (v : Word) (s : State) : (seen v s).obuf = s.obuf := rfl
@[simp] theorem seen_itOp (v : Word) (s : State) : (seen v s).itOp = s.itOp := rfl
@[simp] theorem seen_itIdx (v : Word) (s : State) : (seen v s).itIdx = s.itIdx := rfl
@[simp] theorem seen_itRem (v : Word) (s : State) : (seen v s).itRem = s.itRem := rfl
@[simp] theorem seen_itAcc (v : Word) (s : State) : (seen v s).itAcc = s.itAcc := rfl
@[simp] theorem seen_itLen (v : Word) (s : State) : (seen v s).itLen = s.itLen := rfl
@[simp] theorem seen_ibuf (v : Word) (s : State) : (seen v s).ibuf = s.ibuf := rfl
@[simp] theorem seen_ibufCap (v : Word) (s : State) : (seen v s).ibufCap = s.ibufCap := rfl
@[simp] theorem seen_failW (v : Word) (s : State) : (seen v s).failW = s.failW := rfl
@[simp] theorem seen_source (v : Word) (s : State) : (seen v s).source = s.source := rfl
@[simp] theorem seen_schedule (v : Word) (s : State) : (seen v s).schedule = s.schedule := rfl
@[simp] theorem seen_hostReads (v : Word) (s : State) : (seen v s).hostReads = v :: s.hostReads := rfl
@[simp] theorem seen_draws (v : Word) (s : State) : (seen v s).draws = s.draws := rfl

/-! ### provideReply -/

@[simp] theorem provideReply_code (r : Reply) (s : State) : (provideReply r s).code = s.code := rfl
@[simp] theorem provideReply_busy (r : Reply) (s : State) : (provideReply r s).busy = s.busy := rfl
@[simp] theorem provideReply_done (r : Reply) (s : State) : (provideReply r s).done = s.done := rfl
@[simp] theorem provideReply_arg (r : Reply) (s : State) : (provideReply r s).arg = s.arg := rfl
@[simp] theorem provideReply_ibufLen (r : Reply) (s : State) : (provideReply r s).ibufLen = s.ibufLen := rfl
@[simp] theorem provideReply_resVal (r : Reply) (s : State) : (provideReply r s).resVal = s.resVal := rfl
@[simp] theorem provideReply_resCnt (r : Reply) (s : State) : (provideReply r s).resCnt = s.resCnt := rfl
@[simp] theorem provideReply_xfail (r : Reply) (s : State) : (provideReply r s).xfail = s.xfail := rfl
@[simp] theorem provideReply_obuf (r : Reply) (s : State) : (provideReply r s).obuf = s.obuf := rfl
@[simp] theorem provideReply_itOp (r : Reply) (s : State) : (provideReply r s).itOp = s.itOp := rfl
@[simp] theorem provideReply_itIdx (r : Reply) (s : State) : (provideReply r s).itIdx = s.itIdx := rfl
@[simp] theorem provideReply_itRem (r : Reply) (s : State) : (provideReply r s).itRem = s.itRem := rfl
@[simp] theorem provideReply_itAcc (r : Reply) (s : State) : (provideReply r s).itAcc = s.itAcc := rfl
@[simp] theorem provideReply_itLen (r : Reply) (s : State) : (provideReply r s).itLen = s.itLen := rfl
@[simp] theorem provideReply_ibuf (r : Reply) (s : State) : (provideReply r s).ibuf = s.ibuf := rfl
@[simp] theorem provideReply_ibufCap (r : Reply) (s : State) : (provideReply r s).ibufCap = s.ibufCap := rfl
@[simp] theorem provideReply_failW (r : Reply) (s : State) : (provideReply r s).failW = s.failW := rfl
@[simp] theorem provideReply_source (r : Reply) (s : State) : (provideReply r s).source = s.source ++ [r] := rfl
@[simp] theorem provideReply_schedule (r : Reply) (s : State) : (provideReply r s).schedule = s.schedule := rfl
@[simp] theorem provideReply_hostReads (r : Reply) (s : State) : (provideReply r s).hostReads = s.hostReads := rfl
@[simp] theorem provideReply_draws (r : Reply) (s : State) : (provideReply r s).draws = s.draws := rfl

end Sys2Proof.Machine
end

