-- ==== Sys2Proof/Laws/Ops.lean ====
section
/-! SUPPORT. What each shared operation can do, said once: acceptance, completion, the memory and stream primitives,
one examined byte, and the ways a step can go. -/

namespace Sys2Proof.Machine

/-! ### The command decoder -/

@[simp] theorem decodeOp_opCode (i : Instr) : decodeOp (opCode i) = some i := by cases i <;> decide

/-- An OP code decodes to a command only if it is that command's code. -/
theorem opCode_of_decodeOp {op : BitVec 4} {i : Instr} (h : decodeOp op = some i) :
    op = opCode i := by
  revert op
  cases i <;> decide

/-- What a legal command word looks like. -/
theorem decodeCmd_ok {c : Byte} {i : Instr} (h : decodeCmd c = .ok i) :
    cmdRsv c = 0#4 ∧ decodeOp (cmdOp c) = some i := by
  unfold decodeCmd at h
  split at h
  · cases h
  · rename_i hr
    refine ⟨by simpa using hr, ?_⟩
    cases hd : decodeOp (cmdOp c) with
    | none => rw [hd] at h; cases h
    | some j => rw [hd] at h; cases h; rfl

/-! ### The platform's address of the port -/

/-- The port offset of CORE_BASE + off is off (spec/20_memory.md R61). -/
theorem portOffset_coreBase_add (off : Nat) :
    Config.portOffset (Config.coreBase + off) = some off := by
  simp [Config.portOffset]

/-! ### Acceptance -/

theorem accept_legal {c : Byte} {i : Instr} (h : decodeCmd c = .ok i) (s : State) :
    accept c s = flagsAtAcceptance (latchOperands (cmdOp c) { s with xfail := 0#64 }) := by
  simp [accept, h]

theorem accept_illegal {c : Byte} {r : CmdReject} (h : decodeCmd c = .error r) (s : State) :
    accept c s = raise .illegalOp { s with xfail := 0#64 } := by
  simp [accept, h]

/-- Acceptance is one of two things: an illegal word completes, a legal one starts its command. -/
theorem accept_cases (c : Byte) (s : State) :
    (accept c s = raise .illegalOp { s with xfail := 0#64 } ∧ ∃ r, decodeCmd c = .error r) ∨
    (∃ i, decodeCmd c = .ok i ∧
      accept c s = flagsAtAcceptance (latchOperands (opCode i) { s with xfail := 0#64 })) := by
  cases h : decodeCmd c with
  | error r => exact .inl ⟨accept_illegal h s, r, rfl⟩
  | ok i =>
    refine .inr ⟨i, rfl, ?_⟩
    rw [accept_legal h, opCode_of_decodeOp (decodeCmd_ok h).2]

/-! ### Memory and stream primitives -/

theorem memReadIbuf_noStep {i : Nat} {s : State} (h : s.ibufCap ≤ i) :
    memReadIbuf i s = .noStep := by
  simp [memReadIbuf, h]

theorem memReadIbuf_unwritten {i : Nat} {s : State} (h : i < s.ibufCap)
    (hr : s.ibuf.read i = none) : memReadIbuf i s = .unwritten := by
  simp [memReadIbuf, Nat.not_le.2 h, hr]

theorem memReadIbuf_byte {i : Nat} {b : Byte} {s : State} (h : i < s.ibufCap)
    (hr : s.ibuf.read i = some b) : memReadIbuf i s = .byte b := by
  simp [memReadIbuf, Nat.not_le.2 h, hr]

theorem memReadIbuf_eq_byte {i : Nat} {b : Byte} {s : State} (h : memReadIbuf i s = .byte b) :
    i < s.ibufCap ∧ s.ibuf.read i = some b := by
  unfold memReadIbuf at h
  split at h
  · cases h
  · rename_i hc
    refine ⟨by omega, ?_⟩
    cases hr : s.ibuf.read i with
    | none => rw [hr] at h; cases h
    | some x => rw [hr] at h; cases h; rfl

theorem memWriteObuf_lt {i : Nat} (h : i < 10) (b : Byte) (s : State) :
    memWriteObuf i b s = some { s with obuf := s.obuf.write i b } := by
  simp [memWriteObuf, h]

theorem memWriteObuf_ge {i : Nat} (h : 10 ≤ i) (b : Byte) (s : State) :
    memWriteObuf i b s = none := by
  simp [memWriteObuf, Nat.not_lt.2 h]

theorem memWriteObuf_eq_some {i : Nat} {b : Byte} {s t : State} (h : memWriteObuf i b s = some t) :
    i < 10 ∧ t = { s with obuf := s.obuf.write i b } := by
  unfold memWriteObuf at h
  split at h
  · rename_i hi
    cases h
    exact ⟨hi, rfl⟩
  · cases h

theorem srcPull_nil {s : State} (h : s.source = []) : srcPull s = none := by
  simp [srcPull, h]

theorem srcPull_cons {s : State} {r : Reply} {rest : List Reply} (h : s.source = r :: rest) :
    srcPull s = some (r, { s with source := rest }) := by
  simp [srcPull, h]

/-! ### One byte of an encoding -/

/-- Bit 7 is set exactly from 0x80 on. -/
theorem continues_iff (b : Byte) : continues b = true ↔ 0x80#8 ≤ b := by
  revert b; decide

/-- A byte examined raises an error, completes with the value, or is accumulated. -/
theorem examine_cases (b : Byte) (s : State) :
    (overflows b s.itIdx.toNat = true ∧ examine b s = raise .overflow s) ∨
    (overflows b s.itIdx.toNat = false ∧ continues b = true ∧
      examine b s = { s with itAcc := accumulate b s, itIdx := s.itIdx + 1#4 }) ∨
    (overflows b s.itIdx.toNat = false ∧ continues b = false ∧
      endsNonMinimal b s.itIdx.toNat = true ∧ examine b s = raise .notMinimal s) ∨
    (overflows b s.itIdx.toNat = false ∧ continues b = false ∧
      endsNonMinimal b s.itIdx.toNat = false ∧
      examine b s = complete .ok (some (accumulate b s)) (s.itIdx + 1#4) s) := by
  unfold examine
  cases overflows b s.itIdx.toNat <;> cases continues b <;>
    cases endsNonMinimal b s.itIdx.toNat <;> simp

/-! ### Bit length and size -/

/-- The bit length is the least number of bits that hold the value. -/
theorem bitlen_le_iff (v : Word) (b : Nat) : bitlen v ≤ b ↔ v.toNat < 2 ^ b := by
  unfold bitlen
  split
  · rename_i h
    simp [h]
  · rename_i h
    rw [Nat.add_one_le_iff, Nat.log2_lt h]

theorem bitlen_le (v : Word) : bitlen v ≤ 64 := (bitlen_le_iff v 64).2 v.isLt

theorem size_pos (v : Word) : 1 ≤ size v := Nat.le_max_left ..

theorem size_le (v : Word) : size v ≤ 10 := by
  have := bitlen_le v
  unfold size
  omega

/-- size(v) <= k exactly when v has at most 7k bits, for k >= 1. -/
theorem size_le_iff (v : Word) {k : Nat} (hk : 1 ≤ k) : size v ≤ k ↔ v.toNat < 2 ^ (7 * k) := by
  rw [← bitlen_le_iff]
  unfold size
  omega

/-! ### Steps -/

theorem step_nil {s : State} (h : s.schedule = []) : step s = blockStep s := by
  simp [step, h]

theorem step_cons {s : State} {t : Turn} {rest : List Turn} (h : s.schedule = t :: rest) :
    step s = takeTurn t { s with schedule := rest } := by
  simp [step, h]

theorem blockStep_idle {s : State} (h : s.busy = false) : blockStep s = .next s := by
  simp [blockStep, h]

theorem blockStep_busy {s : State} {i : Instr} (h : s.busy = true) (hi : decodeOp s.itOp = some i) :
    blockStep s = exec i s := by
  simp [blockStep, h, hi]

/-- A block step that goes on is an idle one or a step of the operation in progress. -/
theorem blockStep_cases {s t : State} (h : blockStep s = .next t) :
    (s.busy = false ∧ t = s) ∨
    (s.busy = true ∧ ∃ i, s.itOp = opCode i ∧ exec i s = .next t) := by
  unfold blockStep at h
  split at h
  · rename_i hb
    cases hd : decodeOp s.itOp with
    | none => rw [hd] at h; cases h
    | some i => rw [hd] at h; exact .inr ⟨hb, i, opCode_of_decodeOp hd, h⟩
  · rename_i hb
    cases h
    exact .inl ⟨by simpa using hb, rfl⟩

theorem giveBlockTurn_eq (s : State) :
    giveBlockTurn s = { s with schedule := (giveBlockTurn s).schedule } := by
  unfold giveBlockTurn
  split <;> rfl

/-! The meanings, one equation per case. -/

theorem execEnc_eq {s : State} (h : s.itIdx.toNat < 10) :
    execEnc s = .next (encAdvance { s with obuf := s.obuf.write s.itIdx.toNat (encByte s.itRem) }) := by
  unfold execEnc
  rw [memWriteObuf_lt h]

theorem execDecb_end {s : State} (h : s.itLen.toNat ≤ s.itIdx.toNat) :
    execDecb s = .next (raise .underflow s) := by
  simp only [execDecb, if_pos h]

theorem execDecb_noStep {s : State} (h : s.itIdx.toNat < s.itLen.toNat)
    (hc : s.ibufCap ≤ s.itIdx.toNat) : execDecb s = .next s := by
  simp only [execDecb, if_neg (Nat.not_le.2 h), memReadIbuf_noStep hc]

theorem execDecb_unwritten {s : State} (h : s.itIdx.toNat < s.itLen.toNat)
    (hc : s.itIdx.toNat < s.ibufCap) (hr : s.ibuf.read s.itIdx.toNat = none) :
    execDecb s = .fault .unwrittenRead := by
  simp only [execDecb, if_neg (Nat.not_le.2 h), memReadIbuf_unwritten hc hr]

theorem execDecb_byte {s : State} {b : Byte} (h : s.itIdx.toNat < s.itLen.toNat)
    (hc : s.itIdx.toNat < s.ibufCap) (hr : s.ibuf.read s.itIdx.toNat = some b) :
    execDecb s = .next (examine b s) := by
  simp only [execDecb, if_neg (Nat.not_le.2 h), memReadIbuf_byte hc hr]

theorem execDecs_hold {s : State} (h : s.source = []) : execDecs s = .next s := by
  simp only [execDecs, srcPull_nil h]

theorem execDecs_reply {s : State} {r : Reply} {rest : List Reply} (h : s.source = r :: rest) :
    execDecs s = .next (takeReply r { s with source := rest }) := by
  simp only [execDecs, srcPull_cons h]

/-- What a step of ENC can do: write one byte below offset 10 and complete or move on. -/
theorem execEnc_cases {s t : State} (h : execEnc s = .next t) :
    s.itIdx.toNat < 10 ∧
      t = encAdvance { s with obuf := s.obuf.write s.itIdx.toNat (encByte s.itRem) } := by
  unfold execEnc at h
  split at h
  · cases h
  · rename_i s' hw
    obtain ⟨hi, rfl⟩ := memWriteObuf_eq_some hw
    cases h
    exact ⟨hi, rfl⟩

/-- What a step of DECB can do: report the end of the buffer, hold, or examine the byte at it_idx. -/
theorem execDecb_cases {s t : State} (h : execDecb s = .next t) :
    (s.itLen.toNat ≤ s.itIdx.toNat ∧ t = raise .underflow s) ∨
    (s.itIdx.toNat < s.itLen.toNat ∧ s.ibufCap ≤ s.itIdx.toNat ∧ t = s) ∨
    (s.itIdx.toNat < s.itLen.toNat ∧ s.itIdx.toNat < s.ibufCap ∧
      ∃ b, s.ibuf.read s.itIdx.toNat = some b ∧ t = examine b s) := by
  unfold execDecb at h
  split at h
  · rename_i hl
    cases h
    exact .inl ⟨hl, rfl⟩
  · rename_i hl
    have hl' : s.itIdx.toNat < s.itLen.toNat := by omega
    unfold memReadIbuf at h
    by_cases hc : s.ibufCap ≤ s.itIdx.toNat
    · rw [if_pos hc] at h
      cases h
      exact .inr (.inl ⟨hl', hc, rfl⟩)
    · rw [if_neg hc] at h
      cases hr : s.ibuf.read s.itIdx.toNat with
      | none => rw [hr] at h; cases h
      | some b =>
        rw [hr] at h
        cases h
        exact .inr (.inr ⟨hl', by omega, b, rfl, rfl⟩)

/-- What a step of DECS can do: hold, or take the source's next reply. -/
theorem execDecs_cases {s t : State} (h : execDecs s = .next t) :
    (s.source = [] ∧ t = s) ∨
    (∃ r rest, s.source = r :: rest ∧ t = takeReply r { s with source := rest }) := by
  unfold execDecs at h
  cases hs : s.source with
  | nil =>
    rw [srcPull_nil hs] at h
    cases h
    exact .inl ⟨rfl, rfl⟩
  | cons r rest =>
    rw [srcPull_cons hs] at h
    cases h
    exact .inr ⟨r, rest, rfl, rfl⟩

@[simp] theorem takeTurn_wr (off bits : Nat) (v : Word) (s : State) :
    takeTurn (.wr off bits v) s = portWrite off bits v s := rfl
@[simp] theorem takeTurn_rd (off bits : Nat) (s : State) :
    takeTurn (.rd off bits) s = portRead off bits s := rfl
@[simp] theorem takeTurn_ibuf (i : Nat) (b : Byte) (s : State) :
    takeTurn (.ibuf i b) s = storeIbuf i b s := rfl
@[simp] theorem takeTurn_wait (s : State) : takeTurn .wait s = waitTurn s := rfl
@[simp] theorem takeTurn_reset (s : State) : takeTurn .reset s = .next (resetBlock s) := rfl
@[simp] theorem takeTurn_src (r : Reply) (s : State) :
    takeTurn (.src r) s = .next (provideReply r s) := rfl
@[simp] theorem takeTurn_block (s : State) : takeTurn .block s = blockStep s := rfl

theorem running_iff (i : Instr) (s : State) :
    running i s = true ↔ s.busy = true ∧ s.itOp = opCode i := by
  simp [running]

/-! ### Reset -/

/-- After a reset an OBUF byte is what it was if an abandoned ENC has written it, else it has no value. -/
theorem read_obufAtReset (s : State) (i : Nat) :
    (obufAtReset s).read i = if running .enc s = true ∧ i < s.itIdx.toNat then s.obuf.read i else none := by
  unfold obufAtReset
  by_cases h : running .enc s = true <;> simp [h, Memory.read_upTo]

theorem awaitsReply_iff (s : State) :
    awaitsReply s = true ↔ s.busy = true ∧ s.itOp = 0x4#4 ∧ s.source = [] := by
  simp [awaitsReply, running, opCode, and_assoc]

/-! ### The register port -/

theorem regAccessed_obuf {i : Nat} (h : i < 10) : regAccessed (0x40 + i) 8 = some (.obuf i) := by
  interval_cases i <;> rfl

/-- An access reaches a register only at its offset and its width; OBUF's registers are ten. -/
theorem regAccessed_eq_some {off bits : Nat} {r : Reg} (h : regAccessed off bits = some r) :
    off = r.offset ∧ bits = r.width ∧ ∀ i, r = .obuf i → i < 10 := by
  unfold regAccessed at h
  cases hr : regAt off with
  | none => rw [hr] at h; cases h
  | some q =>
    rw [hr] at h
    simp only at h
    split at h
    · rename_i hw
      cases h
      refine ⟨?_, hw, ?_⟩ <;> unfold regAt at hr <;> split_ifs at hr <;> cases hr <;>
        simp_all [Reg.offset]
      omega
    · cases h

/-- What a host write can do where it goes on: it is a write of CMD, ARG or IBUF_LEN, with BUSY = 0. -/
theorem portWrite_cases {off bits : Nat} {v : Word} {s t : State}
    (h : portWrite off bits v s = .next t) :
    s.busy = false ∧
      ((off = 0x00 ∧ bits = 8 ∧ t = accept (v.setWidth 8) s) ∨
        (off = 0x10 ∧ bits = 64 ∧ t = { s with arg := v }) ∨
        (off = 0x18 ∧ bits = 64 ∧ t = { s with ibufLen := v })) := by
  unfold portWrite at h
  split at h
  · cases h
  · rename_i r hr
    obtain ⟨ho, hw, _⟩ := regAccessed_eq_some hr
    unfold writeReg at h
    split at h
    · cases h
    · rename_i hb
      refine ⟨by simpa using hb, ?_⟩
      cases r <;> cases h
      · exact .inl ⟨ho, hw, rfl⟩
      · exact .inr (.inl ⟨ho, hw, rfl⟩)
      · exact .inr (.inr ⟨ho, hw, rfl⟩)

/-- A host read that goes on only lets the host see a value. -/
theorem portRead_cases {off bits : Nat} {s t : State} (h : portRead off bits s = .next t) :
    ∃ v, t = seen v s := by
  unfold portRead at h
  split at h
  · cases h
  · rename_i r _
    unfold readReg readOperand readResult readObuf at h
    repeat' split at h
    all_goals first | (cases h; done) | (cases h; exact ⟨_, rfl⟩)

/-- An IBUF store that goes on writes one byte below IBUF_CAP, under no held DECS. -/
theorem storeIbuf_cases {i : Nat} {b : Byte} {s t : State} (h : storeIbuf i b s = .next t) :
    awaitsReply s = false ∧ i < s.ibufCap ∧ disturbsDecb i b s = false ∧
      t = { s with ibuf := s.ibuf.write i b } := by
  unfold storeIbuf at h
  split_ifs at h with ha hc hd
  cases h
  exact ⟨by simpa using ha, by omega, by simpa using hd, rfl⟩

/-- `wait` that goes on: BUSY = 1 and the block has stepped, or BUSY = 0 and the host has read STATUS. -/
theorem waitTurn_cases {s t : State} (h : waitTurn s = .next t) :
    (s.busy = true ∧ blockStep { s with schedule := .wait :: s.schedule } = .next t) ∨
    (s.busy = false ∧ t = seen ((statusByte s).setWidth 64) s) := by
  unfold waitTurn at h
  split at h
  · rename_i hb
    exact .inl ⟨hb, h⟩
  · rename_i hb
    cases h
    exact .inr ⟨by simpa using hb, rfl⟩

/-- Every way a step can go on: the block's step on an empty schedule, or the schedule's first turn. -/
theorem step_cases {s t : State} (h : step s = .next t) :
    (s.schedule = [] ∧ blockStep s = .next t) ∨
    (∃ u rest, s.schedule = u :: rest ∧ takeTurn u { s with schedule := rest } = .next t) := by
  cases hs : s.schedule with
  | nil => exact .inl ⟨rfl, by rw [← step_nil hs]; exact h⟩
  | cons u rest => exact .inr ⟨u, rest, rfl, by rw [← step_cons hs]; exact h⟩

/-- Every way a step can go on, by what it is: an accepted command, a host's write of ARG or IBUF_LEN, a host's read or
finished `wait`, an IBUF store, a reset, a reply provided, or a step of the block on the state with some schedule. -/
theorem step_kinds {s t : State} (h : step s = .next t) :
    (∃ v rest, s.schedule = .wr 0x00 8 v :: rest ∧ s.busy = false ∧
      t = accept (v.setWidth 8) { s with schedule := rest }) ∨
    (∃ v rest, s.schedule = .wr 0x10 64 v :: rest ∧ s.busy = false ∧
      t = { s with schedule := rest, arg := v }) ∨
    (∃ v rest, s.schedule = .wr 0x18 64 v :: rest ∧ s.busy = false ∧
      t = { s with schedule := rest, ibufLen := v }) ∨
    (∃ v rest, t = seen v { s with schedule := rest }) ∨
    (∃ i b rest, s.schedule = .ibuf i b :: rest ∧ i < s.ibufCap ∧
      disturbsDecb i b { s with schedule := rest } = false ∧
      t = { s with schedule := rest, ibuf := s.ibuf.write i b }) ∨
    (∃ rest, s.schedule = .reset :: rest ∧ t = resetBlock { s with schedule := rest }) ∨
    (∃ r rest, s.schedule = .src r :: rest ∧ t = provideReply r { s with schedule := rest }) ∨
    (∃ rest, s.busy = false ∧ t = { s with schedule := rest }) ∨
    (∃ rest i, s.busy = true ∧ s.itOp = opCode i ∧ exec i { s with schedule := rest } = .next t) := by
  have block : ∀ l, blockStep { s with schedule := l } = .next t →
      (∃ rest, s.busy = false ∧ t = { s with schedule := rest }) ∨
      (∃ rest i, s.busy = true ∧ s.itOp = opCode i ∧ exec i { s with schedule := rest } = .next t) := by
    intro l hl
    rcases blockStep_cases hl with ⟨hb, rfl⟩ | ⟨hb, i, ho, he⟩
    · exact .inl ⟨l, hb, rfl⟩
    · exact .inr ⟨l, i, hb, ho, he⟩
  rcases step_cases h with ⟨hs, hb⟩ | ⟨u, rest, hs, hu⟩
  · have hb' : blockStep { s with schedule := [] } = .next t := by rw [← hs]; exact hb
    exact .inr (.inr (.inr (.inr (.inr (.inr (.inr (block [] hb')))))))
  · cases u with
    | wr off bits v =>
      obtain ⟨hb, ⟨rfl, rfl, rfl⟩ | ⟨rfl, rfl, rfl⟩ | ⟨rfl, rfl, rfl⟩⟩ := portWrite_cases hu
      · exact .inl ⟨v, rest, hs, hb, rfl⟩
      · exact .inr (.inl ⟨v, rest, hs, hb, rfl⟩)
      · exact .inr (.inr (.inl ⟨v, rest, hs, hb, rfl⟩))
    | rd off bits =>
      obtain ⟨v, rfl⟩ := portRead_cases hu
      exact .inr (.inr (.inr (.inl ⟨v, rest, rfl⟩)))
    | ibuf i b =>
      obtain ⟨_, hc, hd, rfl⟩ := storeIbuf_cases hu
      exact .inr (.inr (.inr (.inr (.inl ⟨i, b, rest, hs, hc, hd, rfl⟩))))
    | wait =>
      rcases waitTurn_cases hu with ⟨_, hb⟩ | ⟨_, rfl⟩
      · exact .inr (.inr (.inr (.inr (.inr (.inr (.inr (block _ hb)))))))
      · exact .inr (.inr (.inr (.inl ⟨_, rest, rfl⟩)))
    | reset =>
      cases hu
      exact .inr (.inr (.inr (.inr (.inr (.inl ⟨rest, hs, rfl⟩)))))
    | src r =>
      cases hu
      exact .inr (.inr (.inr (.inr (.inr (.inr (.inl ⟨r, rest, hs, rfl⟩))))))
    | block => exact .inr (.inr (.inr (.inr (.inr (.inr (.inr (block rest hu)))))))

/-- A run of one step more is a step and the rest of the run. -/
theorem run_succ_next {s t : State} (h : step s = .next t) (k : Nat) :
    Sys2Proof.core.run (k + 1) s = Sys2Proof.core.run k t := by
  have h' : Sys2Proof.core.step s = .next t := h
  simp only [Host.Core.run, h']

/-- An operation that takes a step with BUSY = 1 completes in one step more than from there. -/
theorem CompletesIn.step {k : Nat} {s u t : State} (hb : s.busy = true) (h : step s = .next u)
    (hc : CompletesIn k u t) : CompletesIn (k + 1) s t := by
  refine ⟨by rw [run_succ_next h]; exact hc.1, hc.2.1, fun j hj => ?_⟩
  cases j with
  | zero => exact ⟨s, rfl, hb⟩
  | succ j =>
    obtain ⟨v, hv, hb'⟩ := hc.2.2 j (by omega)
    exact ⟨v, by rw [run_succ_next h]; exact hv, hb'⟩

/-- No operation is in progress: nothing is left to do. -/
theorem CompletesIn.zero {t : State} (h : t.busy = false) : CompletesIn 0 t t :=
  ⟨rfl, h, fun _ hj => absurd hj (Nat.not_lt_zero _)⟩

/-- The state a command starts in: the operands latched, BUSY set, XFAIL cleared. -/
theorem started_eq (i : Instr) (s : State) :
    started i s =
      { s with
        xfail := 0#64, itOp := opCode i, itIdx := 0#4, itAcc := 0#64, itRem := s.arg, itLen := s.ibufLen,
        code := .ok, done := false, busy := true, schedule := [] } := by
  cases i <;> rfl

end Sys2Proof.Machine
end

