-- ==== Sys2Proof/Laws/PerInstr.lean ====
section
/-! SUPPORT. What holds of every instruction as syntax, one lemma per constructor. -/

namespace Sys2Proof.Laws

/-- Family `WordRoundTrip`: the command word of a well-formed instruction decodes to that instruction, by OP code too
(spec/30_encoding.md R81). -/
def WordRoundTrip.Statement (i : Instr) : Prop :=
  i.wf = true ∧ decodeCmd (encode i) = .ok i ∧ decodeTableWord 8 (encode i).toNat = some i ∧
    cmdWordOk (encode i) = true

theorem WordRoundTrip.size : WordRoundTrip.Statement .size := ⟨rfl, rfl, rfl, rfl⟩
theorem WordRoundTrip.enc : WordRoundTrip.Statement .enc := ⟨rfl, rfl, rfl, rfl⟩
theorem WordRoundTrip.decb : WordRoundTrip.Statement .decb := ⟨rfl, rfl, rfl, rfl⟩
theorem WordRoundTrip.decs : WordRoundTrip.Statement .decs := ⟨rfl, rfl, rfl, rfl⟩

end Sys2Proof.Laws
end

