-- ==== Sys2Proof/Tests/Slice0.lean ====
section
/-! SUPPORT. Small tests whose expected results are written in spec/ (the vector or rule is named), ill-formed terms that
the checks refuse, and for every statement with hypotheses a state that meets them (`witness_…`). -/

namespace Sys2Proof.Tests

open Sys2Proof Sys2Proof.Machine

/-- The machine after reset with a 16-byte IBUF and 8-bit failure codes, as the vectors of spec/95_test_vectors.md. -/
def base : State := { State.reset with ibufCap := 16, failW := 8 }

/-- `base` with one turn to take. -/
def withTurn (t : Turn) : State := { base with schedule := [t] }

/-- `base` with an operation in progress: its OP code, index, remaining value, accumulator and latched length. -/
def inProgress (op idx : BitVec 4) (rem acc len : Word) : State :=
  { base with busy := true, itOp := op, itIdx := idx, itRem := rem, itAcc := acc, itLen := len }

/-- The next state, where there is one. -/
def nextOf (o : Host.Outcome State Fault Refusal) : Option State :=
  match o with
  | .next t => some t
  | .fault _ => none
  | .refused _ => none

/-- STATUS, RES_VAL and RES_CNT of the next state. -/
def results (o : Host.Outcome State Fault Refusal) : Option (Byte × Word × Byte) :=
  (nextOf o).map fun t => (statusByte t, t.resVal, t.resCnt)

/-! ### Checks refuse ill-formed terms -/

theorem test_wf_every_instr : Instr.size.wf && Instr.enc.wf && Instr.decb.wf && Instr.decs.wf = true := by decide
theorem test_reserved_refused : reservedOk 0x11#8 = false := by decide
theorem test_op_refused : opOk 0x05#8 = false ∧ opOk 0x00#8 = false := by decide
theorem test_cmd_word_refused : cmdWordOk 0x81#8 = false ∧ cmdWordOk 0x00#8 = false := by decide
theorem test_wire_empty_refused : wireLengthOk [] = false ∧ wireOk [] = false := by decide
theorem test_wire_eleven_refused : wireLengthOk (List.replicate 11 0x81#8) = false := by decide
theorem test_wire_early_end_refused : wireContinues [0x01#8, 0x01#8] = false := by decide
theorem test_wire_no_end_refused : wireTerminates [0x81#8, 0x81#8] = false := by decide
theorem test_wire_padded_refused : wireMinimal [0x80#8, 0x00#8] = false := by decide
theorem test_wire_tenth_refused : wireTenthOk (List.replicate 9 0xFF#8 ++ [0x02#8]) = false := by decide

/-- EN-25: the encoding of 2^64-1 is valid. -/
theorem test_wire_max_accepted : wireOk (List.replicate 9 0xFF#8 ++ [0x01#8]) = true := by decide

/-! ### Decoding (spec/30_encoding.md R81: bit patterns; spec/95_test_vectors.md section 6) -/

theorem test_decode_size : decodeTableWord 8 0b00000001 = some .size := by decide
theorem test_decode_enc : decodeTableWord 8 0b00000010 = some .enc := by decide
theorem test_decode_decb : decodeTableWord 8 0b00000011 = some .decb := by decide
theorem test_decode_decs : decodeTableWord 8 0b00000100 = some .decs := by decide

/-- CA-01, CA-06, CA-07, CA-08, CA-09, CA-10. -/
theorem test_decode_illegal : [0x00, 0x05, 0x0F, 0x11, 0x81, 0xFF].all
    (fun w => decodeTableWord 8 w == none) = true := by decide

/-! ### The commands -/

/-- R101's example: 300 has size 2. -/
theorem test_size_300 : results (exec .size (inProgress 0x1#4 0#4 300#64 0 0)) = some (0x20#8, 0#64, 2#8) := by decide

/-- SZ-25. -/
theorem test_size_max : results (exec .size (inProgress 0x1#4 0#4 0xFFFFFFFFFFFFFFFF#64 0 0)) =
    some (0x20#8, 0#64, 10#8) := by decide

/-- The step trace of EN-09, step 0. -/
theorem test_enc_first_byte : (nextOf (exec .enc (inProgress 0x2#4 0#4 0x12C#64 0 0))).map
    (fun t => (t.obuf.read 0, t.itRem, t.itIdx, statusByte t)) = some (some 0xAC#8, 2#64, 1#4, 0x10#8) := by decide

/-- The step trace of EN-09, step 1. -/
theorem test_enc_last_byte : (nextOf (exec .enc (inProgress 0x2#4 1#4 2#64 0 0))).map
    (fun t => (t.obuf.read 1, t.resCnt, statusByte t)) = some (some 0x02#8, 2#8, 0x20#8) := by decide

/-- The step trace of DB-10, step 1. -/
theorem test_decb_terminates : results (exec .decb { inProgress 0x3#4 1#4 0 0x2C#64 2#64 with
    ibuf := [(0, 0xAC#8), (1, 0x02#8)] }) = some (0x20#8, 0x12C#64, 2#8) := by decide

/-- DB-26, its last step: a tenth byte with its continuation bit set. -/
theorem test_decb_overflow : results (exec .decb { inProgress 0x3#4 9#4 0 0x7FFFFFFFFFFFFFFF#64 10#64 with
    ibuf := [(9, 0x81#8)] }) = some (0x21#8, 0#64, 0#8) := by decide

/-- DS-07, its second pull: FAIL(0x07) in mid-value. -/
theorem test_decs_fail : (nextOf (exec .decs { inProgress 0x4#4 1#4 0 1#64 0 with source := [.fail 0x07#64] })).map
    (fun t => (statusByte t, t.xfail, t.resCnt, t.source)) = some (0x26#8, 7#64, 0#8, []) := by decide

/-- DS-13, its last pull: END at the tenth. -/
theorem test_decs_unexpected_end : results (exec .decs
    { inProgress 0x4#4 9#4 0 0x7FFFFFFFFFFFFFFF#64 0 with source := [.endOfInput] }) =
    some (0x25#8, 0#64, 0#8) := by decide

/-! ### The host's turns -/

/-- CA-08: RSV != 0 with OP = SIZE. -/
theorem test_accept_illegal : results (step (withTurn (.wr 0x00 8 0x11#64))) = some (0x27#8, 0#64, 0#8) := by decide

/-- CA-02: SIZE accepted, ARG latched. -/
theorem test_accept_size : (nextOf (step { withTurn (.wr 0x00 8 0x01#64) with arg := 300#64 })).map
    (fun t => (statusByte t, t.itRem)) = some (0x10#8, 300#64) := by decide

/-- RS-01: a read of OBUF0 after reset faults. -/
theorem test_read_obuf_unwritten : step (withTurn (.rd 0x40 8)) = .fault .unwrittenRead := by rfl

/-- P4, line 3: a write of ARG while BUSY = 1 is refused. -/
theorem test_write_busy_refused : step { inProgress 0x4#4 0#4 0 0 0 with schedule := [.wr 0x10 64 5#64] } =
    .refused .badAccess := by rfl

/-- spec/93_implementation_defined.md U15: a reset that abandons an ENC at it_idx = 1 keeps OBUF[0]; OBUF[1], of an earlier
ENC, has no value. -/
theorem test_reset_abandons_enc : (nextOf (step { inProgress 0x2#4 1#4 2#64 0 0 with
      schedule := [.reset], obuf := [(0, 0xAC#8), (1, 0x7F#8)] })).map
    (fun t => (t.obuf.read 0, t.obuf.read 1, statusByte t)) = some (some 0xAC#8, none, 0x00#8) := by decide

/-- spec/42_decoder.md R157: under a held DECS a STATUS read goes on (P4, line 2) and a read of ARG is refused. -/
theorem test_held_decs : ((nextOf (step { inProgress 0x4#4 0#4 0 0 0 with schedule := [.rd 0x08 8] })).map
    fun t => t.hostReads) = some [0x10#64] ∧
    step { inProgress 0x4#4 0#4 0 0 0 with schedule := [.rd 0x10 64] } = .refused .badAccess := ⟨by decide, by rfl⟩

/-- A command placed by `withFetchWord` right after reset: SIZE of ARG = 0 gives 1 (SZ-01). -/
theorem test_fetch_word_runs : results (step (State.reset.withFetchWord 8 0x01)) = some (0x20#8, 0#64, 1#8) := by decide

/-! ### Witnesses: states that meet the statements' hypotheses -/

/-- An ENC at its second byte, a DECB and a DECS at theirs. -/
def encBusy : State := { inProgress 0x2#4 1#4 2#64 0 0 with obuf := [(0, 0xAC#8)] }
def decbBusy : State := { inProgress 0x3#4 1#4 0 0x2C#64 2#64 with ibuf := [(0, 0xAC#8), (1, 0x02#8)] }
def decsBusy : State := { inProgress 0x4#4 1#4 0 0x2C#64 0 with source := [.byte 0x02#8] }

/-- ResetEventAbandonsOperation: idle, an ENC, a DECS. -/
theorem witness_reset_event : (withTurn .reset).schedule = .reset :: [] ∧
    (running .enc { encBusy with schedule := [.reset] } ∧ running .decs { decsBusy with schedule := [.reset] }) ∧
    (encBusy.itOp = 0x2#4 ∧ decsBusy.itOp = 0x4#4) := by decide

/-- ResetEventForgetsObuf: an idle block, and an ENC at it_idx = 1 over an earlier ENC's OBUF[1]. -/
theorem witness_reset_forgets : ∃ s : State, s.schedule = .reset :: [] ∧ s.busy = false ∧ s.obuf.read 0 = some 0x01#8 :=
  ⟨{ withTurn .reset with obuf := [(0, 0x01#8)] }, by decide⟩
theorem witness_reset_forgets_enc : ∃ s : State, s.schedule = .reset :: [] ∧ s.busy = true ∧ s.itOp = 0x2#4 ∧
    0 < s.itIdx.toNat ∧ ¬ 1 < s.itIdx.toNat ∧ s.obuf.read 1 = some 0x7F#8 :=
  ⟨{ encBusy with schedule := [.reset], obuf := [(0, 0xAC#8), (1, 0x7F#8)] }, by decide⟩

/-- PortRefusesExactlyBadAccesses: the last mapped offset, the first unmapped one, a wrong width. -/
theorem witness_port_accesses : (withTurn (.rd 0x49 8)).schedule = .rd 0x49 8 :: [] ∧
    (withTurn (.rd 0x4A 8)).schedule = .rd 0x4A 8 :: [] ∧ (withTurn (.wr 0x10 8 0)).schedule = .wr 0x10 8 0 :: [] := by
  decide

/-- HeldDecsAdmitsOnlyStatusAndReset and the DECS clause of the port's: a held DECS before each kind of turn. -/
theorem witness_held : [Turn.wr 0x10 64 5, .rd 0x08 8, .rd 0x10 64, .ibuf 0 1#8, .wait, .reset].all (fun u =>
    let s : State := { decsBusy with source := [], schedule := [u] }
    s.busy && s.itOp == 0x4#4 && s.source == [] && s.schedule == [u]) = true := by decide

/-- UnwrittenObufReadFaults, at OBUF[9]. -/
theorem witness_unwritten_obuf : ∃ (s : State) (i : Nat), i < 10 ∧ s.busy = false ∧ s.obuf.read i = none ∧
    s.schedule = .rd (0x40 + i) 8 :: [] := ⟨withTurn (.rd 0x49 8), 9, by decide⟩

/-- ReadReturnsRegisterAndChangesNothing, its clause on ARG and IBUF_LEN while BUSY = 1: a DECS with a reply ready. -/
theorem witness_reads_busy : ∃ s : State, s.schedule = .rd 0x10 64 :: [] ∧ s.busy = true ∧
    ¬ (s.busy = true ∧ s.itOp = 0x4#4 ∧ s.source = []) := ⟨{ decsBusy with schedule := [.rd 0x10 64] }, by decide⟩

/-- ReadReturnsRegisterAndChangesNothing: each clause, OBUF at its ends. -/
theorem witness_reads : [(0x08, 8), (0x10, 64), (0x18, 64), (0x20, 64), (0x28, 8), (0x30, 64)].all (fun p =>
      (withTurn (.rd p.1 p.2)).schedule == [.rd p.1 p.2] && (withTurn (.rd p.1 p.2)).busy == false) = true ∧
    [0, 9].all (fun i => let s : State := { withTurn (.rd (0x40 + i) 8) with obuf := [(0, 1#8), (9, 1#8)] }
      s.obuf.read i == some 1#8 && s.busy == false) = true := by decide

/-- OperandWritesHaveNoOtherEffect, both clauses. -/
theorem witness_operand_writes : base.busy = false ∧ (withTurn (.wr 0x10 64 1)).schedule = .wr 0x10 64 1 :: [] ∧
    (withTurn (.wr 0x18 64 1)).schedule = .wr 0x18 64 1 :: [] := by decide

/-- IbufStoreRefusedOnlyUnderDecb: refused at offset 9, allowed at offset 10, under ENC, DECS and SIZE, and for the byte
already there. -/
theorem witness_ibuf_store : ∃ s : State, s.schedule = .ibuf 9 1#8 :: [] ∧ 9 < s.ibufCap ∧ s.busy = true ∧
    s.itOp = 0x3#4 ∧ s.ibuf.read 9 ≠ some 1#8 := ⟨{ decbBusy with schedule := [.ibuf 9 1#8] }, by decide⟩
theorem witness_ibuf_store_allowed : ∃ s : State, s.schedule = .ibuf 10 1#8 :: [] ∧ 10 < s.ibufCap ∧
    ¬ (s.busy = true ∧ s.itOp = 0x3#4 ∧ 10 ≤ 9 ∧ s.ibuf.read 10 ≠ some 1#8) :=
  ⟨{ decbBusy with schedule := [.ibuf 10 1#8] }, by decide⟩
theorem witness_ibuf_store_other_op : [encBusy, decsBusy, inProgress 0x1#4 0#4 0 0 0].all (fun u =>
    let s : State := { u with schedule := [.ibuf 0 1#8] }
    s.schedule == [.ibuf 0 1#8] && decide (0 < s.ibufCap) && s.busy &&
      decide (¬ (s.busy = true ∧ s.itOp = 0x4#4 ∧ s.source = [])) &&
      decide (¬ (s.busy = true ∧ s.itOp = 0x3#4 ∧ 0 ≤ 9 ∧ s.ibuf.read 0 ≠ some 1#8))) = true := by decide
theorem witness_ibuf_store_held : ∃ s : State, s.schedule = .ibuf 0 1#8 :: [] ∧ 0 < s.ibufCap ∧ s.busy = true ∧
    s.itOp = 0x4#4 ∧ s.source = [] := ⟨{ decsBusy with source := [], schedule := [.ibuf 0 1#8] }, by decide⟩
theorem witness_ibuf_store_same : ∃ s : State, s.schedule = .ibuf 1 2#8 :: [] ∧ 1 < s.ibufCap ∧
    ¬ (s.busy = true ∧ s.itOp = 0x3#4 ∧ 1 ≤ 9 ∧ s.ibuf.read 1 ≠ some 2#8) :=
  ⟨{ decbBusy with schedule := [.ibuf 1 2#8] }, by decide⟩

/-- WaitPollsStatus, both clauses. -/
theorem witness_wait : (withTurn .wait).schedule = .wait :: [] ∧ (withTurn .wait).busy = false ∧
    ({ decbBusy with schedule := [.wait] } : State).busy = true := by decide

/-- CommandEncodeDecodeAgree: a well-formed instruction, and a word that decodes. -/
theorem witness_encode_decode : Instr.enc.wf = true ∧ decodeTableWord 8 (0x02#8 : Byte).toNat = some .enc := by decide
theorem witness_decode_ok : decodeCmd 0x02#8 = .ok .enc := by rfl

/-- AcceptanceFollowsPseudocode: the last legal word and the first illegal one after it. -/
theorem witness_acceptance : (withTurn (.wr 0x00 8 4#64)).busy = false ∧ (4#64 : Word).setWidth 8 = 0x04#8 ∧
    ¬ ((5#64 : Word).setWidth 8 = 0x01#8 ∨ (5#64 : Word).setWidth 8 = 0x02#8 ∨ (5#64 : Word).setWidth 8 = 0x03#8 ∨
      (5#64 : Word).setWidth 8 = 0x04#8) := by decide

/-- OnlyALegalCommandWakesTheBlock. -/
theorem witness_wakes : ∃ s t : State, step s = .next t ∧ s.busy = false ∧ t.busy = true :=
  ⟨withTurn (.wr 0x00 8 1#64), _, rfl, rfl, rfl⟩
theorem witness_idle : base.busy = false ∧ base.schedule = [] := by decide

/-- StepRunsTheAcceptedCommand: each of its three schedules, and each command's code. -/
theorem witness_step_runs : decbBusy.busy = true ∧ decbBusy.schedule = [] ∧
    ({ decbBusy with schedule := [.block] } : State).schedule = .block :: [] ∧
    ({ decbBusy with schedule := [.wait] } : State).schedule = .wait :: [] ∧
    encBusy.itOp = (encode .enc).extractLsb' 0 4 ∧ decbBusy.itOp = (encode .decb).extractLsb' 0 4 ∧
    decsBusy.itOp = (encode .decs).extractLsb' 0 4 ∧
    (inProgress 0x1#4 0#4 0 0 0).itOp = (encode .size).extractLsb' 0 4 := by decide

/-- SizeReportsMinimalByteCount, at bit lengths 0, 7, 8 and 64. -/
theorem witness_size_bitlen : [(0, 0#64), (7, 0x7F#64), (8, 0x80#64), (64, 0xFFFFFFFFFFFFFFFF#64)].all (fun p =>
    decide ((inProgress 0x1#4 0#4 p.2 0 0).itRem.toNat < 2 ^ p.1) &&
      (p.1 == 0 || decide (2 ^ (p.1 - 1) ≤ (inProgress 0x1#4 0#4 p.2 0 0).itRem.toNat))) = true := by decide

/-- SizeComparatorForm and SizeIsMonotone: indexes at both ends, values before and at a boundary. -/
theorem witness_size_rows : (1 ≤ 1 ∧ 10 ≤ 10) ∧ (0x7F#64 : Word) ≤ 0x80#64 ∧
    (0x7F#64 : Word).toNat + 1 = 2 ^ (7 * 1) ∧ (0x7FFFFFFFFFFFFFFF#64 : Word).toNat + 1 = 2 ^ (7 * 9) ∧
    (0x80#64 : Word).toNat + 1 < 2 ^ 64 := by decide
theorem witness_size_no_change : ∀ k, 1 ≤ k → k ≤ 9 → (0x80#64 : Word).toNat + 1 ≠ 2 ^ (7 * k) := by
  intro k h₁ h₂
  interval_cases k <;> decide

/-- SizeRunCompletesInOneStep, EncRunWritesTheEncoding and EncodingIsMinimal start idle. -/
theorem witness_run_idle : base.busy = false ∧ ({ base with arg := 300#64 } : State).busy = false := by decide

/-- EncStepFollowsPseudocode: more to come, and the last byte at it_idx = 9. -/
theorem witness_enc_step : (inProgress 0x2#4 0#4 0x80#64 0 0).itIdx.toNat ≤ 9 ∧
    (inProgress 0x2#4 0#4 0x80#64 0 0).itRem >>> 7 ≠ 0#64 ∧ (inProgress 0x2#4 9#4 1#64 0 0).itIdx.toNat ≤ 9 ∧
    (inProgress 0x2#4 9#4 1#64 0 0).itRem >>> 7 = 0#64 := by decide

/-- EncStoresOneByte. -/
theorem witness_enc_next : ∃ t : State, exec .enc encBusy = .next t := ⟨_, rfl⟩

/-- DecbStepFollowsPseudocode: UNDERFLOW at it_idx = it_len. -/
theorem witness_decb_underflow : ∃ s : State, s.itIdx.toNat ≤ 9 ∧ s.itLen.toNat ≤ s.itIdx.toNat :=
  ⟨inProgress 0x3#4 9#4 0 0 9#64, by decide⟩

/-- DecbStepFollowsPseudocode: a state at index `i` over byte `b`, for each of the clauses on a byte. -/
def decbAt (i : BitVec 4) (b : Byte) : State := { inProgress 0x3#4 i 0 0 10#64 with ibuf := [(i.toNat, b)] }

theorem witness_decb_readable : [(9#4, 0x02#8), (9#4, 0xFF#8), (8#4, 0x80#8), (9#4, 0x00#8), (1#4, 0x00#8),
    (0#4, 0x00#8), (9#4, 0x01#8)].all (fun p => decide ((decbAt p.1 p.2).itIdx.toNat ≤ 9 ∧
      (decbAt p.1 p.2).itIdx.toNat < (decbAt p.1 p.2).itLen.toNat ∧
      (decbAt p.1 p.2).itIdx.toNat < (decbAt p.1 p.2).ibufCap ∧
      (decbAt p.1 p.2).ibuf.read (decbAt p.1 p.2).itIdx.toNat = some p.2)) = true := by decide
theorem witness_decb_overflow : (decbAt 9#4 0x02#8).itIdx = 9#4 ∧ (0x01#8 : Byte) < 0x02#8 := by decide
theorem witness_decb_continues : ¬ ((decbAt 8#4 0x80#8).itIdx = 9#4 ∧ (0x01#8 : Byte) < 0x80#8) ∧
    (0x80#8 : Byte) ≤ 0x80#8 := by decide
theorem witness_decb_not_minimal : (decbAt 9#4 0x00#8).itIdx ≠ 0#4 := by decide
theorem witness_decb_ok : ¬ ((decbAt 9#4 0x01#8).itIdx = 9#4 ∧ (0x01#8 : Byte) < 0x01#8) ∧ (0x01#8 : Byte) < 0x80#8 ∧
    ¬ ((0x01#8 : Byte) = 0x00#8 ∧ (decbAt 9#4 0x01#8).itIdx ≠ 0#4) := by decide

/-- DecbReadsIbufByTheRules: it_idx at IBUF_CAP, and an unwritten byte below it. -/
theorem witness_decb_hold : ∃ s : State, s.itIdx.toNat < s.itLen.toNat ∧ s.ibufCap ≤ s.itIdx.toNat :=
  ⟨{ decbBusy with ibufCap := 1 }, by decide⟩
theorem witness_decb_unwritten : ∃ s : State, s.itIdx.toNat < s.itLen.toNat ∧ s.itIdx.toNat < s.ibufCap ∧
    s.ibuf.read s.itIdx.toNat = none := ⟨{ decbBusy with ibuf := [] }, by decide⟩

/-- UnderflowExactlyAtBufferEnd and OverflowExactlyOnTenthByte. -/
theorem witness_decoders_busy : decbBusy.busy = true ∧ decsBusy.busy = true := by decide

/-- NotMinimalIffSizeBelowCount, at index 9 and at index 0. -/
theorem witness_not_minimal : (0x7FFFFFFFFFFFFFFF#64 : Word).toNat < 2 ^ (7 * 9) ∧ (0x00#8 : Byte) < 0x80#8 ∧
    (0x01#8 : Byte) ≤ 0x01#8 ∧ (0#64 : Word).toNat < 2 ^ (7 * 0) ∧ (0x7F#8 : Byte) < 0x80#8 := by decide

/-- Two continuation bytes and a terminator at the front of IBUF. -/
def buffered : State := { base with ibufLen := 3#64, ibuf := [(0, 0x80#8), (1, 0x80#8), (2, 0x01#8)] }

/-- DecbRunMatchesDecodeBuf: a decode that ends in a byte, and one (DB-09's shape) that runs out of bytes. -/
theorem witness_decb_run : buffered.busy = false ∧ [0x80#8, 0x80#8, 0x01#8].length ≤ buffered.ibufLen.toNat ∧
    [0x80#8, 0x80#8, 0x01#8].length ≤ buffered.ibufCap ∧
    (decodeBuf [0x80#8, 0x80#8, 0x01#8] 3).status = .ok ∧ (decodeBuf [0x80#8, 0x80#8] 2).status = .underflow := by decide
/-- DecbRunMatchesDecodeBuf, its premise for UNDERFLOW: the bytes are as many as IBUF_LEN says. -/
def truncated : State := { buffered with ibufLen := 2#64 }

theorem witness_decb_run_underflow : truncated.busy = false ∧ (decodeBuf [0x80#8, 0x80#8] 2).status = .underflow ∧
    [0x80#8, 0x80#8].length = truncated.ibufLen.toNat ∧ [0x80#8, 0x80#8].length ≤ truncated.ibufCap ∧
    truncated.ibuf.read 0 = some 0x80#8 ∧ truncated.ibuf.read 1 = some 0x80#8 := by decide
theorem witness_decb_run_bytes : ∀ i b, [0x80#8, 0x80#8, 0x01#8][i]? = some b → buffered.ibuf.read i = some b := by
  intro i b h
  match i, h with
  | 0, h => exact h
  | 1, h => exact h
  | 2, h => exact h
  | _ + 3, h => exact absurd h (by simp)

/-- DecbOfEncodingRoundTrips: IBUF holds the encoding of 2^14 (EN-11), with IBUF_LEN equal to its size. -/
theorem witness_round_trip : buffered.busy = false ∧ size 0x4000#64 ≤ buffered.ibufLen.toNat ∧
    size 0x4000#64 ≤ buffered.ibufCap ∧ ∀ i < size 0x4000#64, buffered.ibuf.read i = (wireEncode 0x4000#64)[i]? := by
  decide

/-- TrailingBytesDoNotMatter. -/
theorem witness_trailing : (decodeBuf [0x01#8] [0x01#8].length).status ≠ .underflow := by decide

/-- DecbStepSeesOnlyOneByte: another buffer with the same byte at it_idx. -/
theorem witness_one_byte : Memory.read [(1, 0x02#8)] decbBusy.itIdx.toNat = decbBusy.ibuf.read decbBusy.itIdx.toNat ∧
    ∃ t : State, exec .decb decbBusy = .next t := ⟨by decide, _, rfl⟩

/-- DecbPastCapacityNeverCompletes: a one-byte buffer with IBUF_LEN = 2. -/
theorem witness_past_capacity : ∃ s : State, s.busy = false ∧ s.ibufCap ≤ 9 ∧ s.ibufCap < s.ibufLen.toNat ∧
    ∀ i < s.ibufCap, ∃ b, s.ibuf.read i = some b ∧ 0x80#8 ≤ b :=
  ⟨{ base with ibufCap := 1, ibufLen := 2#64, ibuf := [(0, 0x80#8)] }, by decide, by decide, by decide, fun i hi => by
    have : i = 0 := Nat.lt_one_iff.1 hi
    subst this
    exact ⟨0x80#8, rfl, by decide⟩⟩

/-- DecsStepFollowsPseudocode: each kind of reply, END at the first pull and at the tenth. -/
def decsAt (i : BitVec 4) (r : Reply) : State := { inProgress 0x4#4 i 0 0 0 with source := [r] }

theorem witness_decs_replies : [(0#4, Reply.endOfInput), (9#4, .endOfInput), (0#4, .fail 0x2A#64), (9#4, .byte 0x02#8),
    (8#4, .byte 0x80#8), (9#4, .byte 0x00#8), (9#4, .byte 0x01#8), (0#4, .byte 0x00#8)].all (fun p =>
      decide ((decsAt p.1 p.2).itIdx.toNat ≤ 9 ∧ (decsAt p.1 p.2).source = p.2 :: [])) = true := by decide
theorem witness_decs_clauses : (decsAt 0#4 .endOfInput).itIdx = 0#4 ∧ (decsAt 9#4 .endOfInput).itIdx ≠ 0#4 ∧
    (decsAt 9#4 (.byte 0x02#8)).itIdx = 9#4 ∧ (decsAt 8#4 (.byte 0x80#8)).itIdx ≠ 9#4 := by decide

/-- OverflowExactlyOnTenthByte, its clause at index 9: a decoder that completes there, and one that holds. -/
theorem witness_tenth : (decbAt 9#4 0x01#8).busy = true ∧ (decbAt 9#4 0x01#8).itIdx = 9#4 ∧
    (∃ t : State, exec .decb (decbAt 9#4 0x01#8) = .next t) ∧
    (decsAt 9#4 (.byte 0xFF#8)).busy = true ∧ (decsAt 9#4 (.byte 0xFF#8)).itIdx = 9#4 ∧
    (∃ t : State, exec .decs (decsAt 9#4 (.byte 0xFF#8)) = .next t) ∧
    ∃ t : State, exec .decs { decsAt 9#4 .endOfInput with source := [] } = .next t :=
  ⟨rfl, rfl, ⟨_, rfl⟩, rfl, rfl, ⟨_, rfl⟩, _, rfl⟩

/-- DecsWithoutReplyNeverCompletes: no reply at all, and too few. -/
theorem witness_decs_hold : base.source = [] ∧ base.busy = false ∧ decodeStream base.failW base.source = none ∧
    decodeStream 8 [.byte 0x80#8] = none := by decide

/-- DecsRunMatchesDecodeStream (DS-08). -/
theorem witness_decs_run : ∃ (s : State) (r : StreamResult), s.busy = false ∧ decodeStream s.failW s.source = some r ∧
    r = ⟨⟨.ok, 0x12C#64, 2⟩, 0#64, 2⟩ :=
  ⟨{ base with source := [.byte 0xAC#8, .byte 0x02#8] }, ⟨⟨.ok, 0x12C#64, 2⟩, 0#64, 2⟩, by decide⟩

/-- StreamDecodeAgreesWithBufferDecode: a decode that ends in a byte, an empty buffer, a buffer that runs out. -/
theorem witness_stream_buffer : (decodeBuf [0x01#8] 1).status ≠ .underflow ∧ (decodeBuf [] 0).status = .underflow ∧
    (decodeBuf [0x81#8] 1).status = .underflow := by decide

/-- DecoderErrorsReportZero: NOT_MINIMAL by DECB and by DECS. -/
theorem witness_decoder_error : ∃ t : State, exec .decb (decbAt 1#4 0x00#8) = .next t ∧
    (decbAt 1#4 0x00#8).busy = true ∧ t.busy = false ∧ t.code ≠ .ok := ⟨_, rfl, rfl, rfl, by decide⟩
theorem witness_decoder_error_stream : ∃ t : State, exec .decs (decsAt 1#4 (.byte 0x00#8)) = .next t ∧
    (decsAt 1#4 (.byte 0x00#8)).busy = true ∧ t.busy = false ∧ t.code ≠ .ok := ⟨_, rfl, rfl, rfl, by decide⟩

/-- DecoderStatusesKeptApart: the decoders at the end of their input. -/
theorem witness_statuses : (∃ t : State, exec .decs (decsAt 0#4 .endOfInput) = .next t ∧ t.busy = false) ∧
    ∃ t : State, exec .decb (inProgress 0x3#4 0#4 0 0 0) = .next t ∧ t.busy = false := ⟨⟨_, rfl, rfl⟩, ⟨_, rfl, rfl⟩⟩

/-- SizeAndDecodersStoreNothing and LatchedOperandsAreNotReread: each command goes on somewhere. -/
theorem witness_exec_next : (∃ t : State, exec .size encBusy = .next t) ∧ (∃ t : State, exec .enc encBusy = .next t) ∧
    (∃ t : State, exec .decb decbBusy = .next t) ∧ ∃ t : State, exec .decs decsBusy = .next t :=
  ⟨⟨_, rfl⟩, ⟨_, rfl⟩, ⟨_, rfl⟩, ⟨_, rfl⟩⟩

/-- EveryStepKeepsTheInvariant: a DECB in progress meets the invariant and goes on. -/
theorem witness_invariant : ∃ s t : State, Inv s ∧ s.busy = true ∧ step s = .next t := by
  refine ⟨decbBusy, _, ?_, rfl, rfl⟩
  constructor <;> decide

/-- OperandsChangeOnlyByHostOrReset: both registers, by the host. -/
theorem witness_operand_change : (∃ t : State, step (withTurn (.wr 0x10 64 1)) = .next t ∧ t.arg ≠ base.arg) ∧
    ∃ t : State, step (withTurn (.wr 0x18 64 1)) = .next t ∧ t.ibufLen ≠ base.ibufLen :=
  ⟨⟨_, rfl, by decide⟩, ⟨_, rfl, by decide⟩⟩

/-- XfailChangesOnlyByItsRules: set by a failing source. -/
theorem witness_xfail_change : ∃ t : State, step (decsAt 0#4 (.fail 0x2A#64)) = .next t ∧
    t.xfail ≠ (decsAt 0#4 (.fail 0x2A#64)).xfail := ⟨_, rfl, by decide⟩

/-- ObufChangesOnlyByEncOrReset: changed by ENC. -/
theorem witness_obuf_change : ∃ t : State, step encBusy = .next t ∧ t.obuf.read 1 ≠ encBusy.obuf.read 1 :=
  ⟨_, rfl, by decide⟩

/-- IbufChangesOnlyByHost: the last byte of the buffer. -/
theorem witness_ibuf_change : ∃ t : State, step (withTurn (.ibuf 15 1#8)) = .next t ∧
    t.ibuf.read 15 ≠ base.ibuf.read 15 := ⟨_, rfl, by decide⟩

/-- ResultsAppearOnlyAtCompletion: an ENC step that is not the last. -/
theorem witness_intermediate : ∃ t : State, step (inProgress 0x2#4 0#4 0x80#64 0 0) = .next t ∧
    (inProgress 0x2#4 0#4 0x80#64 0 0).busy = true ∧ t.busy = true := ⟨_, rfl, rfl, rfl⟩

/-- IterationStateIsInvisible: a read that goes on, one that faults, one that is refused. -/
theorem witness_host_reads : (∃ t : State, step (withTurn (.rd 0x08 8)) = .next t) ∧
    step (withTurn (.rd 0x40 8)) = .fault .unwrittenRead ∧ step (withTurn (.rd 0x00 8)) = .refused .badAccess :=
  ⟨⟨_, rfl⟩, rfl, rfl⟩

/-- IterationStateIsInvisible, its premise on the command: ARG read under ENC, it_op replaced by SIZE's. -/
theorem witness_host_reads_busy : ∃ s : State, s.schedule = .rd 0x10 64 :: [] ∧ s.busy = true ∧
    ((0x1#4 : BitVec 4) = 0x4#4 ↔ s.itOp = 0x4#4) := ⟨{ encBusy with schedule := [.rd 0x10 64] }, by decide⟩

/-- InstancesAreIndependent: two instances, the second one moving. -/
theorem witness_instances : [base, encBusy][1]? = some encBusy ∧ ∃ t : State, step encBusy = .next t := ⟨rfl, _, rfl⟩

end Sys2Proof.Tests
end

