-- ==== Sys2Proof/Proofs/BlockSteps.lean ====
section
/-! The block's step in the three places a schedule gives it, and the command word that starts a command. -/

namespace Sys2Proof.Machine

/-! ### Command words -/

/-- The OP field of a command word is its command's code (spec/30_encoding.md R80, R81). -/
@[simp] theorem extractLsb'_encode (i : Instr) : (encode i).extractLsb' 0 4 = opCode i := by
  cases i <;> rfl

@[simp] theorem decodeCmd_encode (i : Instr) : decodeCmd (encode i) = .ok i := by
  cases i <;> rfl

/-- Read at its full width, a command word is itself (spec/30_encoding.md R85). -/
@[simp] theorem tableWord_toNat (c : Byte) : tableWord 8 c.toNat = c := by
  simp [tableWord, Nat.mod_eq_of_lt c.isLt]

/-- A command's own word starts that command. -/
theorem accept_encode (i : Instr) (s : State) :
    accept (encode i) s = flagsAtAcceptance (latchOperands (opCode i) { s with xfail := 0#64 }) := by
  rw [accept_legal (decodeCmd_encode i)]
  exact congrArg (fun op => flagsAtAcceptance (latchOperands op _)) (extractLsb'_encode i)

@[simp] theorem accept_encode_busy (i : Instr) (s : State) : (accept (encode i) s).busy = true := by
  rw [accept_encode]; rfl

@[simp] theorem accept_encode_itOp (i : Instr) (s : State) : (accept (encode i) s).itOp = opCode i := by
  rw [accept_encode]; rfl

/-! ### The block's turn -/

/-- The busy block runs the command whose code is in it_op. -/
theorem blockStep_of_itOp {s : State} {i : Instr} (hb : s.busy = true) (ho : s.itOp = opCode i) :
    blockStep s = exec i s :=
  blockStep_busy hb (by rw [ho, decodeOp_opCode])

/-- A turn given to the block is used up by the block's step. -/
theorem step_block {s : State} {rest : List Turn} (h : s.schedule = .block :: rest) :
    step s = blockStep { s with schedule := rest } := by
  rw [step_cons h, takeTurn_block]

/-- While the host waits on a busy block, the block steps and the wait stays (log entry 14). -/
theorem step_wait_busy {s : State} {rest : List Turn} (hb : s.busy = true) (h : s.schedule = .wait :: rest) :
    step s = blockStep s := by
  have hs : ({ s with schedule := .wait :: rest } : State) = s := by rw [← h]
  rw [step_cons h, takeTurn_wait, waitTurn, if_pos hb, hs]

/-- The turn that `giveBlockTurn` makes the next one is the block's, on the state it was given (log entry 8). -/
theorem step_giveBlockTurn (s : State) : step (giveBlockTurn s) = blockStep s := by
  cases h : s.schedule with
  | nil => rw [giveBlockTurn, h]; exact step_nil h
  | cons t rest =>
    have hs : ({ s with schedule := t :: rest } : State) = s := by rw [← h]
    rw [giveBlockTurn, h]
    exact (step_block rfl).trans (congrArg blockStep hs)

/-- A command word placed by `withFetchWord` is run by the next step. -/
theorem step_withFetchWord_encode (s : State) (i : Instr) :
    step (s.withFetchWord 8 (encode i).toNat) = exec i (accept (encode i) s) := by
  rw [State.withFetchWord, tableWord_toNat, placeCommand, step_giveBlockTurn]
  exact blockStep_of_itOp (accept_encode_busy i s) (accept_encode_itOp i s)

end Sys2Proof.Machine
end

