-- ==== Sys2Proof/Proofs/Scope.lean ====
section
/-! The obligation on the scope of a step (spec/00_scope.md R15). -/

namespace Sys2Proof.Machine

/-- Settles O16: each of the three schedules leads to the block's step, which runs the command in it_op. -/
theorem stepRunsTheAcceptedCommand : Obligations.StepRunsTheAcceptedCommand := by
  refine ⟨fun s i rest hb ho => ?_, step_withFetchWord_encode⟩
  rw [extractLsb'_encode] at ho
  refine ⟨fun h => ?_, fun h => ?_, fun h => ?_⟩
  · rw [step_nil h, blockStep_of_itOp hb ho]
  · rw [step_block h]
    exact blockStep_of_itOp hb ho
  · rw [step_wait_busy hb h, blockStep_of_itOp hb ho]

end Sys2Proof.Machine
end

