-- ==== Sys2Proof/Proofs/OperationFrames.lean ====
section
/-! What a step of each operation may change, register by register, and what every other step leaves alone. A frame
`t = { s with r := t.r, … }` says that `t` differs from `s` in the named registers at most. -/

namespace Sys2Proof.Machine

/-! ### The frame of each operation -/

theorem examine_frame (b : Byte) (s : State) :
    examine b s =
      { s with
        code := (examine b s).code, busy := (examine b s).busy, done := (examine b s).done,
        resVal := (examine b s).resVal, resCnt := (examine b s).resCnt, itIdx := (examine b s).itIdx,
        itAcc := (examine b s).itAcc } := by
  rcases examine_cases b s with ⟨_, h⟩ | ⟨_, _, h⟩ | ⟨_, _, _, h⟩ | ⟨_, _, _, h⟩ <;> rw [h] <;> rfl

@[simp] theorem takeReply_byte (b : Byte) (s : State) : takeReply (.byte b) s = examine b s := rfl

/-- SIZE changes STATUS and RES_CNT. -/
theorem execSize_frame {s t : State} (h : execSize s = .next t) :
    t = { s with code := t.code, busy := t.busy, done := t.done, resCnt := t.resCnt } := by
  cases h; rfl

/-- ENC changes STATUS, RES_CNT and OBUF. -/
theorem execEnc_frame {s t : State} (h : execEnc s = .next t) :
    t = { s with
      code := t.code, busy := t.busy, done := t.done, resCnt := t.resCnt, obuf := t.obuf,
      itIdx := t.itIdx, itRem := t.itRem } := by
  obtain ⟨_, rfl⟩ := execEnc_cases h
  unfold encAdvance
  split <;> rfl

/-- DECB changes STATUS, RES_VAL and RES_CNT. -/
theorem execDecb_frame {s t : State} (h : execDecb s = .next t) :
    t = { s with
      code := t.code, busy := t.busy, done := t.done, resVal := t.resVal, resCnt := t.resCnt,
      itIdx := t.itIdx, itAcc := t.itAcc } := by
  rcases execDecb_cases h with ⟨_, rfl⟩ | ⟨_, _, rfl⟩ | ⟨_, _, b, _, rfl⟩
  · rfl
  · rfl
  · exact examine_frame b s

/-- DECS changes what DECB does, and XFAIL and the source. -/
theorem execDecs_frame {s t : State} (h : execDecs s = .next t) :
    t = { s with
      code := t.code, busy := t.busy, done := t.done, resVal := t.resVal, resCnt := t.resCnt, xfail := t.xfail,
      itIdx := t.itIdx, itAcc := t.itAcc, source := t.source } := by
  rcases execDecs_cases h with ⟨_, rfl⟩ | ⟨r, rest, _, rfl⟩
  · rfl
  · cases r with
    | byte b => rw [takeReply_byte, examine_frame]
    | endOfInput => rfl
    | fail c => rfl

/-- No operation changes ARG, IBUF_LEN or IBUF, nor takes a turn of the host. -/
theorem exec_frame {i : Instr} {s t : State} (h : exec i s = .next t) :
    t = { s with
      code := t.code, busy := t.busy, done := t.done, resVal := t.resVal, resCnt := t.resCnt, xfail := t.xfail,
      obuf := t.obuf, itIdx := t.itIdx, itRem := t.itRem, itAcc := t.itAcc, source := t.source } := by
  cases i with
  | size => rw [execSize_frame h]
  | enc => rw [execEnc_frame h]
  | decb => rw [execDecb_frame h]
  | decs => rw [execDecs_frame h]

/-! ### What single operations write -/

@[simp] theorem encAdvance_obuf (s : State) : (encAdvance s).obuf = s.obuf := by
  unfold encAdvance
  split <;> rfl

/-- Only ENC writes OBUF, and it writes one byte, below offset 10 (spec/20_memory.md R53). -/
theorem exec_obuf {i : Instr} {s t : State} (h : exec i s = .next t) :
    t.obuf = s.obuf ∨ i = .enc ∧ s.itIdx.toNat < 10 ∧ t.obuf = s.obuf.write s.itIdx.toNat (encByte s.itRem) := by
  cases i with
  | size => exact .inl (by rw [execSize_frame h])
  | enc =>
    obtain ⟨hi, rfl⟩ := execEnc_cases h
    exact .inr ⟨rfl, hi, encAdvance_obuf _⟩
  | decb => exact .inl (by rw [execDecb_frame h])
  | decs => exact .inl (by rw [execDecs_frame h])

/-- Only DECS writes XFAIL, when it takes a FAIL reply, and then it completes (spec/10_state.md R28). -/
theorem exec_xfail {i : Instr} {s t : State} (h : exec i s = .next t) :
    t.xfail = s.xfail ∨ i = .decs ∧ ∃ c rest, s.source = .fail c :: rest ∧ t.busy = false ∧
      t.code = .transportFail ∧ t.xfail = failCode s.failW c := by
  cases i with
  | size => exact .inl (by rw [execSize_frame h])
  | enc => exact .inl (by rw [execEnc_frame h])
  | decb => exact .inl (by rw [execDecb_frame h])
  | decs =>
    rcases execDecs_cases h with ⟨_, rfl⟩ | ⟨r, rest, hs, rfl⟩
    · exact .inl rfl
    · cases r with
      | byte b => exact .inl (by rw [takeReply_byte, examine_frame])
      | endOfInput => exact .inl rfl
      | fail c => exact .inr ⟨rfl, c, rest, hs, rfl, rfl, rfl⟩

/-- The FAIL_W-bit code of a FAIL reply is its low FAIL_W bits (log entry 6). -/
theorem failCode_toNat (w : Nat) (c : Word) : (failCode w c).toNat = c.toNat % 2 ^ w := by
  have hlt : c.toNat % 2 ^ w < 2 ^ 64 := Nat.lt_of_le_of_lt (Nat.mod_le ..) c.isLt
  rw [failCode, BitVec.toNat_setWidth, BitVec.toNat_setWidth, Nat.mod_eq_of_lt hlt]

/-! ### The frame of acceptance and of a step -/

theorem accept_frame (c : Byte) (s : State) :
    accept c s =
      { s with
        code := (accept c s).code, busy := (accept c s).busy, done := (accept c s).done,
        resVal := (accept c s).resVal, resCnt := (accept c s).resCnt, xfail := 0#64, itOp := (accept c s).itOp,
        itIdx := (accept c s).itIdx, itRem := (accept c s).itRem, itAcc := (accept c s).itAcc,
        itLen := (accept c s).itLen } := by
  rcases accept_cases c s with ⟨h, _⟩ | ⟨_, _, h⟩ <;> rw [h] <;> rfl

/-- A step that goes on accepts a command, resets, or is a step of the operation in progress; any other changes nothing
in the block but ARG and IBUF_LEN. -/
theorem step_cases_of_block {s t : State} (h : step s = .next t) :
    (∃ v rest, s.schedule = .wr 0x00 8 v :: rest ∧ s.busy = false ∧
      t = accept (v.setWidth 8) { s with schedule := rest }) ∨
    (∃ rest, s.schedule = .reset :: rest ∧ t = resetBlock { s with schedule := rest }) ∨
    (∃ rest i, s.busy = true ∧ s.itOp = opCode i ∧ exec i { s with schedule := rest } = .next t) ∨
    t = { s with
      arg := t.arg, ibufLen := t.ibufLen, ibuf := t.ibuf, source := t.source, schedule := t.schedule,
      hostReads := t.hostReads } := by
  rcases step_kinds h with hacc | ⟨_, _, _, _, rfl⟩ | ⟨_, _, _, _, rfl⟩ | ⟨_, _, rfl⟩ | ⟨_, _, _, _, _, _, rfl⟩ |
    hreset | ⟨_, _, _, rfl⟩ | ⟨_, _, rfl⟩ | hexec
  · exact .inl hacc
  · exact .inr (.inr (.inr rfl))
  · exact .inr (.inr (.inr rfl))
  · exact .inr (.inr (.inr rfl))
  · exact .inr (.inr (.inr rfl))
  · exact .inr (.inl hreset)
  · exact .inr (.inr (.inr rfl))
  · exact .inr (.inr (.inr rfl))
  · exact .inr (.inr (.inl hexec))

end Sys2Proof.Machine
end

