-- ==== Sys2Proof/Proofs/Invariant.lean ====
section
/-! The invariant: it holds after reset and every step keeps it. A state with BUSY = 0 meets it by its stored bytes and
its results alone (`Stored.inv_of_idle`); a step that leaves BUSY = 1 changes only what it names. -/

namespace Sys2Proof.Machine

/-! ### The part of the invariant that no flag conditions -/

/-- The buffers and XFAIL are well formed, whatever the block is doing: the first six fields of `Inv`. -/
structure Stored (s : State) : Prop where
  obufWf : s.obuf.wf
  obufBelow : s.obuf.below 10
  ibufWf : s.ibuf.wf
  ibufBelow : s.ibuf.below s.ibufCap
  failWRange : 1 ≤ s.failW ∧ s.failW ≤ 64
  xfailWidth : s.xfail.toNat < 2 ^ s.failW

theorem Inv.stored {s : State} (h : Inv s) : Stored s :=
  ⟨h.obufWf, h.obufBelow, h.ibufWf, h.ibufBelow, h.failWRange, h.xfailWidth⟩

theorem Stored.with_obuf {s : State} (h : Stored s) {m : Memory} (hwf : m.wf) (hb : m.below 10) :
    Stored { s with obuf := m } :=
  { h with obufWf := hwf, obufBelow := hb }

theorem Stored.with_xfail {s : State} (h : Stored s) {v : Word} (hv : v.toNat < 2 ^ s.failW) :
    Stored { s with xfail := v } :=
  { h with xfailWidth := hv }

/-- A FAIL_W-bit code fits XFAIL. -/
theorem failCode_lt (w : Nat) (c : Word) : (failCode w c).toNat < 2 ^ w := by
  rw [failCode_toNat]
  exact Nat.mod_lt _ (Nat.two_pow_pos w)

/-- Idle, the invariant is about stored bytes and results only: no iteration register matters. -/
theorem Stored.inv_of_idle {s : State} (h : Stored s) (hb : s.busy = false) (hcount : s.resCnt.toNat ≤ 10)
    (hxfail : s.xfail ≠ 0#64 → s.done = true ∧ s.code = .transportFail)
    (herror : s.done = true → s.code ≠ .ok → s.resVal = 0#64 ∧ s.resCnt = 0x00#8)
    (hok : s.done = true → s.code = .ok → 1 ≤ s.resCnt.toNat)
    (hfresh : s.done = false → s.code = .ok ∧ s.resVal = 0#64 ∧ s.resCnt = 0x00#8) : Inv s := by
  have idle : s.busy ≠ true := by simp [hb]
  have none_running : ∀ i, running i s ≠ true := fun i hi => idle ((running_iff i s).1 hi).1
  exact
    { h with
      flagsApart := fun hf => idle hf.1
      busyCode := fun hf => absurd hf idle
      countRange := hcount
      xfailMeaning := hxfail
      errorZero := herror
      okCount := hok
      freshZero := fun _ => hfresh
      busyOp := fun hf => absurd hf idle
      busyIdx := fun hf => absurd hf idle
      sizeIdx := fun hr => absurd hr (none_running _)
      encRem := fun hr => absurd hr (none_running _)
      encOut := fun hr => absurd hr (none_running _)
      busyAcc := fun hf => absurd hf idle }

/-! ### Reset -/

/-- A state with every host-visible register at its reset value meets the invariant (spec/10_state.md R38). -/
theorem Stored.inv_of_cleared {s : State} (h : Stored s) (hb : s.busy = false) (hd : s.done = false)
    (hx : s.xfail = 0#64) (hz : s.code = .ok ∧ s.resVal = 0#64 ∧ s.resCnt = 0x00#8) : Inv s := by
  have not_done : s.done ≠ true := by simp [hd]
  refine h.inv_of_idle hb ?_ (fun hne => absurd hx hne) (fun hf => absurd hf not_done)
    (fun hf => absurd hf not_done) fun _ => hz
  rw [hz.2.2]
  exact Nat.zero_le _

theorem failW_range : 1 ≤ Config.failW ∧ Config.failW ≤ 64 := by
  unfold Config.failW
  omega

/-- Settles O43: nothing is stored yet and every register is 0. -/
theorem resetMeetsTheInvariant : Obligations.ResetMeetsTheInvariant := by
  have stored : Stored State.reset :=
    ⟨Memory.wf_nil, Memory.below_nil _, Memory.wf_nil, Memory.below_nil _, failW_range, Nat.two_pow_pos _⟩
  exact stored.inv_of_cleared rfl rfl rfl ⟨rfl, rfl, rfl⟩

theorem wf_obufAtReset {s : State} (h : s.obuf.wf) : (obufAtReset s).wf := by
  unfold obufAtReset
  split
  · exact Memory.wf_upTo h _
  · exact Memory.wf_nil

theorem below_obufAtReset {s : State} {n : Nat} (h : s.obuf.below n) : (obufAtReset s).below n := by
  unfold obufAtReset
  split
  · exact Memory.below_upTo h _
  · exact Memory.below_nil _

theorem Stored.inv_resetBlock {s : State} (h : Stored s) : Inv (resetBlock s) := by
  have stored : Stored (resetBlock s) :=
    { h with
      obufWf := wf_obufAtReset h.obufWf
      obufBelow := below_obufAtReset h.obufBelow
      xfailWidth := Nat.two_pow_pos _ }
  exact stored.inv_of_cleared rfl rfl rfl ⟨rfl, rfl, rfl⟩

/-! ### Completion -/

theorem Stored.inv_raise {s : State} (h : Stored s) {c : StatusCode} (hc : c ≠ .ok)
    (hx : s.xfail ≠ 0#64 → c = .transportFail) : Inv (raise c s) := by
  have stored : Stored (raise c s) := { h with }
  exact stored.inv_of_idle rfl (Nat.zero_le _) (fun hne => ⟨rfl, hx hne⟩) (fun _ _ => ⟨rfl, rfl⟩)
    (fun _ hok => absurd hok hc) (fun hd => absurd hd (by simp))

theorem Stored.inv_complete_ok {s : State} (h : Stored s) (hx : s.xfail = 0#64) (v : Option Word) {n : BitVec 4}
    (h1 : 1 ≤ n.toNat) (h10 : n.toNat ≤ 10) : Inv (complete .ok v n s) := by
  have stored : Stored (complete .ok v n s) := { h with }
  have count : (complete .ok v n s).resCnt.toNat = n.toNat := BitVec.toNat_setWidth_of_le (by decide)
  exact stored.inv_of_idle rfl (count.trans_le h10) (fun hne => absurd hx hne) (fun _ hne => absurd rfl hne)
    (fun _ _ => h1.trans_eq count.symm) (fun hd => absurd hd (by simp))

/-! ### Turns that touch no register of the invariant -/

/-- The invariant does not mention ARG, IBUF_LEN, it_len, the source, the schedule, the reads or the draws. -/
theorem Inv.of_unmentioned {s : State} (h : Inv s) (a l il : Word) (src : List Reply) (sch : List Turn)
    (reads : List Word) (d : Nat) :
    Inv { s with
      arg := a, ibufLen := l, itLen := il, source := src, schedule := sch, hostReads := reads, draws := d } :=
  { h with }

theorem Inv.with_ibuf_write {s : State} (h : Inv s) {i : Nat} (hi : i < s.ibufCap) (b : Byte) :
    Inv { s with ibuf := s.ibuf.write i b } :=
  { h with ibufWf := Memory.wf_write h.ibufWf i b, ibufBelow := Memory.below_write h.ibufBelow hi b }

/-! ### Acceptance -/

/-- An illegal word completes with zero results; a legal one starts its command with nothing emitted or examined. -/
theorem accept_keeps_inv {s : State} (h : Inv s) (c : Byte) : Inv (accept c s) := by
  have stored : Stored { s with xfail := 0#64 } := h.stored.with_xfail (Nat.two_pow_pos _)
  rcases accept_cases c s with ⟨ha, _⟩ | ⟨i, _, ha⟩ <;> rw [ha]
  · exact stored.inv_raise (by decide) fun hne => absurd rfl hne
  · exact
      { stored with
        flagsApart := by simp
        busyCode := fun _ => rfl
        countRange := h.countRange
        xfailMeaning := fun hne => absurd rfl hne
        errorZero := by simp
        okCount := by simp
        freshZero := by simp
        busyOp := by simp
        busyIdx := by simp
        sizeIdx := by simp
        encRem := fun _ => ⟨s.arg.isLt, fun hne => absurd rfl hne⟩
        encOut := by simp
        busyAcc := by simp }

/-! ### While an operation runs -/

/-- Only a completed DECS leaves XFAIL set, and DONE is 0 while BUSY = 1. -/
theorem Inv.busy_xfail {s : State} (h : Inv s) (hb : s.busy = true) : s.xfail = 0#64 := by
  by_contra hne
  exact h.flagsApart ⟨hb, (h.xfailMeaning hne).1⟩

theorem Inv.inv_raise {s : State} (h : Inv s) (hb : s.busy = true) {c : StatusCode} (hc : c ≠ .ok) :
    Inv (raise c s) :=
  h.stored.inv_raise hc fun hne => absurd (h.busy_xfail hb) hne

/-- An index that an operation reaches advances without wrapping (log entry 20). -/
theorem idx_succ_toNat {idx : BitVec 4} (h : idx.toNat ≤ 9) : (idx + 1#4).toNat = idx.toNat + 1 :=
  BitVec.toNat_add_of_lt (by show idx.toNat + 1 < 16; omega)

/-- Completing at it_idx reports a count of it_idx + 1, which is in 1..10 (spec/10_state.md R27, R35). -/
theorem Stored.inv_complete_at_idx {s : State} (h : Stored s) (hx : s.xfail = 0#64) (hi : s.itIdx.toNat ≤ 9)
    (v : Option Word) : Inv (complete .ok v (s.itIdx + 1#4) s) := by
  have count := idx_succ_toNat hi
  exact h.inv_complete_ok hx v (by omega) (by omega)

/-! ### SIZE -/

theorem execSize_keeps_inv {s t : State} (h : Inv s) (hb : s.busy = true) (he : execSize s = .next t) : Inv t := by
  cases he
  have small := size_le s.itRem
  have count : (BitVec.ofNat 4 (size s.itRem)).toNat = size s.itRem := Nat.mod_eq_of_lt (by omega)
  exact h.stored.inv_complete_ok (h.busy_xfail hb) none (by rw [count]; exact size_pos _) (by rw [count]; exact small)

/-! ### ENC -/

theorem continues_withContinuation (b : Byte) : continues (withContinuation b) = true := by
  simp [continues, withContinuation]

/-- The byte emitted carries the continuation bit when more follow (spec/41_encoder.md R121). -/
theorem continues_encByte {r : Word} (h : r >>> 7 ≠ 0#64) : continues (encByte r) = true := by
  rw [encByte, if_pos h]
  exact continues_withContinuation _

/-- The rest of the value is shorter by the chunk emitted, and a tenth byte leaves no rest (spec/41_encoder.md R124). -/
theorem rest_bound {r : Word} {i : Nat} (hr : r.toNat < 2 ^ (64 - 7 * i)) (hi : i ≤ 9) (hmore : r >>> 7 ≠ 0#64) :
    i + 1 ≤ 9 ∧ (r >>> 7).toNat < 2 ^ (64 - 7 * (i + 1)) := by
  have hshift : (r >>> 7).toNat = r.toNat / 2 ^ 7 := by
    rw [BitVec.toNat_ushiftRight, Nat.shiftRight_eq_div_pow]
  have hi9 : i ≠ 9 := by
    rintro rfl
    refine hmore (BitVec.eq_of_toNat_eq (hshift.trans (Nat.div_eq_of_lt ?_)))
    omega
  refine ⟨by omega, ?_⟩
  rw [hshift]
  refine Nat.div_lt_of_lt_mul ?_
  rwa [← Nat.pow_add, show 7 + (64 - 7 * (i + 1)) = 64 - 7 * i by omega]

/-- The bytes emitted so far and one more with its continuation bit set (spec/41_encoder.md R125). -/
theorem emitted_succ {m : Memory} {n : Nat} {b : Byte}
    (h : ∀ j < n, ∃ x, m.read j = some x ∧ continues x = true) (hb : continues b = true) :
    ∀ j < n + 1, ∃ x, (m.write n b).read j = some x ∧ continues x = true := by
  intro j hj
  rcases Nat.lt_succ_iff_lt_or_eq.1 hj with hlt | rfl
  · rw [Memory.read_write_other m b (by omega)]
    exact h j hlt
  · exact ⟨b, Memory.read_write_same .., hb⟩

theorem execEnc_keeps_inv {s t : State} (h : Inv s) (hb : s.busy = true) (ho : s.itOp = opCode .enc)
    (he : execEnc s = .next t) : Inv t := by
  obtain ⟨hi, rfl⟩ := execEnc_cases he
  have hwf := Memory.wf_write h.obufWf s.itIdx.toNat (encByte s.itRem)
  have hbelow := Memory.below_write h.obufBelow hi (encByte s.itRem)
  have hi9 := h.busyIdx hb
  have henc : running .enc s = true := (running_iff ..).2 ⟨hb, ho⟩
  obtain ⟨hrem, -⟩ := h.encRem henc
  unfold encAdvance
  split
  · exact (h.stored.with_obuf hwf hbelow).inv_complete_at_idx (h.busy_xfail hb) hi9 none
  · rename_i hmore
    obtain ⟨hsmall, hrest⟩ := rest_bound hrem hi9 hmore
    have hsucc := idx_succ_toNat hi9
    exact
      { h with
        obufWf := hwf
        obufBelow := hbelow
        busyIdx := fun _ => hsucc.trans_le hsmall
        sizeIdx := fun hr => absurd (((running_iff ..).1 hr).2.symm.trans ho) (by decide)
        encRem := fun _ => ⟨by rw [hsucc]; exact hrest, fun _ => hmore⟩
        encOut := fun _ => by rw [hsucc]; exact emitted_succ (h.encOut henc) (continues_encByte hmore)
        busyAcc := fun _ => by
          rw [hsucc]
          exact (h.busyAcc hb).trans_le (Nat.pow_le_pow_right (by decide) (by omega)) }

/-! ### The decoders -/

/-- Byte i contributes bits below 7(i + 1). -/
theorem contribution_lt (b : Byte) (i : Nat) : (contribution b i).toNat < 2 ^ (7 * (i + 1)) := by
  have hchunk : ((b &&& 0x7F#8).setWidth 64).toNat < 2 ^ 7 := by
    rw [BitVec.toNat_setWidth_of_le (by decide), BitVec.toNat_and]
    exact Nat.and_lt_two_pow _ (by decide)
  rw [contribution, BitVec.toNat_shiftLeft, Nat.shiftLeft_eq, Nat.mul_add, Nat.pow_add, Nat.mul_comm (2 ^ (7 * i))]
  exact (Nat.mod_le ..).trans_lt (Nat.mul_lt_mul_of_pos_right hchunk (Nat.two_pow_pos _))

theorem accumulate_lt {s : State} (h : s.itAcc.toNat < 2 ^ (7 * s.itIdx.toNat)) (b : Byte) :
    (accumulate b s).toNat < 2 ^ (7 * (s.itIdx.toNat + 1)) := by
  rw [accumulate, BitVec.toNat_or]
  exact Nat.or_lt_two_pow (h.trans_le (Nat.pow_le_pow_right (by decide) (by omega))) (contribution_lt _ _)

/-- A tenth byte with its continuation bit set overflows (spec/42_decoder.md R143). -/
theorem overflows_of_continues {b : Byte} (h : continues b = true) : overflows b 9 = true := by
  have hge : 0x80#8 ≤ b := (continues_iff b).1 h
  have hgt : 0x01#8 < b := by bv_omega
  simpa [overflows] using hgt

theorem examine_keeps_inv {s : State} (h : Inv s) (hb : s.busy = true) (hsize : s.itOp ≠ opCode .size)
    (henc : s.itOp ≠ opCode .enc) (b : Byte) : Inv (examine b s) := by
  have hi := h.busyIdx hb
  rcases examine_cases b s with ⟨_, he⟩ | ⟨hover, hcont, he⟩ | ⟨_, _, _, he⟩ | ⟨_, _, _, he⟩ <;> rw [he]
  · exact h.inv_raise hb (by decide)
  · have hne : s.itIdx.toNat ≠ 9 := fun h9 => by
      rw [h9, overflows_of_continues hcont] at hover
      cases hover
    have hsucc := idx_succ_toNat hi
    exact
      { h with
        busyIdx := fun _ => hsucc.trans_le (by omega)
        sizeIdx := fun hr => absurd ((running_iff ..).1 hr).2 hsize
        encRem := fun hr => absurd ((running_iff ..).1 hr).2 henc
        encOut := fun hr => absurd ((running_iff ..).1 hr).2 henc
        busyAcc := fun _ => by
          rw [hsucc]
          exact accumulate_lt (h.busyAcc hb) b }
  · exact h.inv_raise hb (by decide)
  · exact h.stored.inv_complete_at_idx (h.busy_xfail hb) hi _

theorem execDecb_keeps_inv {s t : State} (h : Inv s) (hb : s.busy = true) (ho : s.itOp = opCode .decb)
    (he : execDecb s = .next t) : Inv t := by
  rcases execDecb_cases he with ⟨_, rfl⟩ | ⟨_, _, rfl⟩ | ⟨_, _, b, _, rfl⟩
  · exact h.inv_raise hb (by decide)
  · exact h
  · exact examine_keeps_inv h hb (by rw [ho]; decide) (by rw [ho]; decide) b

theorem endStatus_ne_ok (idx : BitVec 4) : endStatus idx ≠ .ok := by
  unfold endStatus
  split <;> decide

theorem takeReply_keeps_inv {s : State} (h : Inv s) (hb : s.busy = true) (ho : s.itOp = opCode .decs) (r : Reply) :
    Inv (takeReply r s) := by
  cases r with
  | byte b => exact examine_keeps_inv h hb (by rw [ho]; decide) (by rw [ho]; decide) b
  | endOfInput => exact h.inv_raise hb (endStatus_ne_ok _)
  | fail c => exact (h.stored.with_xfail (failCode_lt _ c)).inv_raise (by decide) fun _ => rfl

theorem execDecs_keeps_inv {s t : State} (h : Inv s) (hb : s.busy = true) (ho : s.itOp = opCode .decs)
    (he : execDecs s = .next t) : Inv t := by
  rcases execDecs_cases he with ⟨_, rfl⟩ | ⟨r, rest, _, rfl⟩
  · exact h
  · have pulled : Inv { s with source := rest } := h.of_unmentioned ..
    exact takeReply_keeps_inv pulled hb ho r

/-! ### Every step -/

theorem exec_keeps_inv {i : Instr} {s t : State} (h : Inv s) (hb : s.busy = true) (ho : s.itOp = opCode i)
    (he : exec i s = .next t) : Inv t := by
  cases i with
  | size => exact execSize_keeps_inv h hb he
  | enc => exact execEnc_keeps_inv h hb ho he
  | decb => exact execDecb_keeps_inv h hb ho he
  | decs => exact execDecs_keeps_inv h hb ho he

/-- Settles O44, by the kinds of steps: what a turn changes is covered by its own lemma above. -/
theorem everyStepKeepsTheInvariant : Obligations.EveryStepKeepsTheInvariant := by
  intro s t h hstep
  have scheduled (rest : List Turn) : Inv { s with schedule := rest } := h.of_unmentioned ..
  rcases step_kinds hstep with ⟨v, rest, _, _, rfl⟩ | ⟨v, rest, _, _, rfl⟩ | ⟨v, rest, _, _, rfl⟩ | ⟨v, rest, rfl⟩ |
    ⟨i, b, rest, _, hi, _, rfl⟩ | ⟨rest, _, rfl⟩ | ⟨r, rest, _, rfl⟩ | ⟨rest, _, rfl⟩ | ⟨rest, i, hb, ho, he⟩
  · exact accept_keeps_inv (scheduled rest) _
  · exact h.of_unmentioned ..
  · exact h.of_unmentioned ..
  · exact h.of_unmentioned ..
  · exact (scheduled rest).with_ibuf_write hi b
  · exact (scheduled rest).stored.inv_resetBlock
  · exact h.of_unmentioned ..
  · exact scheduled rest
  · exact exec_keeps_inv (scheduled rest) hb ho he

end Sys2Proof.Machine
end

