-- ==== Sys2Proof/Proofs/RegisterChanges.lean ====
section
/-! Which events change a register or a byte of OBUF (spec/10_state.md R22, R23, R28, R29), and what the operations that
store nothing leave alone (R33). -/

namespace Sys2Proof.Machine

/-- Settles O42: each unit's frame names the only registers its step changes. -/
theorem sizeAndDecodersStoreNothing : Obligations.SizeAndDecodersStoreNothing := by
  intro s t i hi h
  cases i with
  | size => rw [execSize_frame h]; simp
  | enc => exact absurd rfl hi
  | decb => rw [execDecb_frame h]; simp
  | decs => rw [execDecs_frame h]; simp

/-! ### ARG and IBUF_LEN -/

/-- A step writes one operand register for the host, resets both, or keeps both. -/
theorem step_operands {s t : State} (h : step s = .next t) :
    (∃ v rest, s.schedule = .wr 0x10 64 v :: rest ∧ s.busy = false ∧ t.arg = v ∧ t.ibufLen = s.ibufLen) ∨
    (∃ v rest, s.schedule = .wr 0x18 64 v :: rest ∧ s.busy = false ∧ t.ibufLen = v ∧ t.arg = s.arg) ∨
    (∃ rest, s.schedule = .reset :: rest ∧ t.arg = 0#64 ∧ t.ibufLen = 0#64) ∨
    (t.arg = s.arg ∧ t.ibufLen = s.ibufLen) := by
  rcases step_kinds h with ⟨v, rest, _, _, rfl⟩ | ⟨v, rest, hs, hb, rfl⟩ | ⟨v, rest, hs, hb, rfl⟩ | ⟨_, _, rfl⟩ |
    ⟨_, _, _, _, _, _, rfl⟩ | ⟨rest, hs, rfl⟩ | ⟨_, _, _, rfl⟩ | ⟨_, _, rfl⟩ | ⟨_, _, _, _, he⟩
  · exact .inr (.inr (.inr (by rw [accept_frame]; exact ⟨rfl, rfl⟩)))
  · exact .inl ⟨v, rest, hs, hb, rfl, rfl⟩
  · exact .inr (.inl ⟨v, rest, hs, hb, rfl, rfl⟩)
  · exact .inr (.inr (.inr ⟨rfl, rfl⟩))
  · exact .inr (.inr (.inr ⟨rfl, rfl⟩))
  · exact .inr (.inr (.inl ⟨rest, hs, rfl, rfl⟩))
  · exact .inr (.inr (.inr ⟨rfl, rfl⟩))
  · exact .inr (.inr (.inr ⟨rfl, rfl⟩))
  · exact .inr (.inr (.inr (by rw [exec_frame he]; exact ⟨rfl, rfl⟩)))

/-- Settles O45: of the four kinds of steps, one writes ARG, one IBUF_LEN and one resets both. -/
theorem operandsChangeOnlyByHostOrReset : Obligations.OperandsChangeOnlyByHostOrReset := by
  intro s t h
  rcases step_operands h with ⟨v, rest, hs, hb, ha, hl⟩ | ⟨v, rest, hs, hb, hl, ha⟩ | ⟨rest, hs, ha, hl⟩ | ⟨ha, hl⟩
  · exact ⟨fun _ => .inl ⟨v, rest, hs, hb, ha⟩, fun hne => absurd hl hne⟩
  · exact ⟨fun hne => absurd ha hne, fun _ => .inl ⟨v, rest, hs, hb, hl⟩⟩
  · exact ⟨fun _ => .inr ⟨rest, hs, ha⟩, fun _ => .inr ⟨rest, hs, hl⟩⟩
  · exact ⟨fun hne => absurd ha hne, fun hne => absurd hl hne⟩

/-! ### XFAIL -/

/-- Settles O46: acceptance and reset clear XFAIL, and of the operations only DECS writes it (`exec_xfail`). -/
theorem xfailChangesOnlyByItsRules : Obligations.XfailChangesOnlyByItsRules := by
  intro s t h hne
  rcases step_cases_of_block h with ⟨v, rest, hs, _, rfl⟩ | ⟨rest, hs, rfl⟩ | ⟨rest, i, hb, ho, he⟩ | hframe
  · exact .inl ⟨v, rest, hs, by rw [accept_frame]⟩
  · exact .inr (.inl ⟨rest, hs, rfl⟩)
  · rcases exec_xfail he with hsame | ⟨rfl, c, rest', hsource, hbusy, hcode, hx⟩
    · exact absurd hsame hne
    · exact .inr (.inr ⟨c, rest', hb, ho, hsource, hbusy, hcode, by rw [hx, failCode_toNat]⟩)
  · exact absurd (by rw [hframe]) hne

/-! ### OBUF -/

/-- Settles O47: of the operations only ENC writes OBUF, and only at it_idx (`exec_obuf`). -/
theorem obufChangesOnlyByEncOrReset : Obligations.ObufChangesOnlyByEncOrReset := by
  intro s t a h hne
  rcases step_cases_of_block h with ⟨v, rest, _, _, rfl⟩ | ⟨rest, hs, rfl⟩ | ⟨rest, i, hb, ho, he⟩ | hframe
  · exact absurd (by rw [accept_frame]) hne
  · refine .inl ⟨rest, hs, ?_⟩
    rw [resetBlock_obuf, read_obufAtReset] at hne ⊢
    split at hne
    · exact absurd rfl hne
    · rename_i hlost
      exact if_neg hlost
  · rcases exec_obuf he with hsame | ⟨rfl, hi, hwrite⟩
    · exact absurd (by rw [hsame]) hne
    · have ha : a = s.itIdx.toNat := by
        by_contra hother
        exact hne (by rw [hwrite, Memory.read_write_other _ _ (Ne.symm hother)])
      exact .inr ⟨hb, ho, ha, ha ▸ hi⟩
  · exact absurd (by rw [hframe]) hne

end Sys2Proof.Machine
end

