-- ==== Sys2Proof/Proofs/RegisterPort.lean ====
section
/-! The register port (spec/10_state.md R21, R30, R31): which accesses are refused, what a read returns, what a write
does. An access is of the register `regAccessed` names, and its outcome that of `readReg` or `writeReg`. -/

namespace Sys2Proof.Machine

/-! ### From an access to its register -/

/-- A write's turn is a write of the register it reaches. -/
theorem step_wr {s : State} {off bits : Nat} {v : Word} {rest : List Turn} {r : Reg}
    (h : s.schedule = .wr off bits v :: rest) (hr : regAccessed off bits = some r) :
    step s = writeReg r v { s with schedule := rest } := by
  rw [step_cons h, takeTurn_wr, portWrite, hr]

/-- A read's turn is a read of the register it reaches. -/
theorem step_rd {s : State} {off bits : Nat} {rest : List Turn} {r : Reg}
    (h : s.schedule = .rd off bits :: rest) (hr : regAccessed off bits = some r) :
    step s = readReg r { s with schedule := rest } := by
  rw [step_cons h, takeTurn_rd, portRead, hr]

theorem step_wr_unmapped {s : State} {off bits : Nat} {v : Word} {rest : List Turn}
    (h : s.schedule = .wr off bits v :: rest) (hr : regAccessed off bits = none) : step s = .refused .badAccess := by
  rw [step_cons h, takeTurn_wr, portWrite, hr]

theorem step_rd_unmapped {s : State} {off bits : Nat} {rest : List Turn}
    (h : s.schedule = .rd off bits :: rest) (hr : regAccessed off bits = none) : step s = .refused .badAccess := by
  rw [step_cons h, takeTurn_rd, portRead, hr]

/-- Every register is reached at its own offset and width (spec/10_state.md R21). -/
theorem regAccessed_own {r : Reg} (h : ∀ i, r = .obuf i → i < 10) : regAccessed r.offset r.width = some r := by
  cases r with
  | obuf i => exact regAccessed_obuf (h i rfl)
  | cmd | status | arg | ibufLen | resVal | resCnt | xfail => rfl

/-- An access reaches exactly the register of its offset and width. -/
theorem regAccessed_iff {off bits : Nat} {r : Reg} :
    regAccessed off bits = some r ↔ off = r.offset ∧ bits = r.width ∧ ∀ i, r = .obuf i → i < 10 := by
  refine ⟨regAccessed_eq_some, ?_⟩
  rintro ⟨rfl, rfl, h⟩
  exact regAccessed_own h

/-- The ten OBUF registers stand at offsets 0x40 to 0x49. -/
theorem regAccessed_obuf_iff {off bits : Nat} :
    (∃ i, regAccessed off bits = some (.obuf i)) ↔ 0x40 ≤ off ∧ off ≤ 0x49 ∧ bits = 8 := by
  simp only [regAccessed_iff, Reg.offset, Reg.width, Reg.obuf.injEq, forall_eq']
  constructor
  · rintro ⟨i, rfl, hw, hi⟩
    omega
  · rintro ⟨hlo, hhi, hw⟩
    exact ⟨off - 0x40, by omega, hw, by omega⟩

/-! ### Which accesses are refused (spec/10_state.md R30, spec/42_decoder.md R157) -/

/-- A write of a register is refused while BUSY = 1, and always but for CMD, ARG and IBUF_LEN. -/
theorem writeReg_refused_iff (r : Reg) (v : Word) (s : State) :
    writeReg r v s = .refused .badAccess ↔ s.busy = true ∨ ¬ (r = .cmd ∨ r = .arg ∨ r = .ibufLen) := by
  cases hb : s.busy <;> cases r <;> simp [writeReg, hb]

theorem readOperand_refused_iff (v : Word) (s : State) :
    readOperand v s = .refused .badAccess ↔ awaitsReply s = true := by
  cases h : awaitsReply s <;> simp [readOperand, h]

theorem readResult_refused_iff (v : Word) (s : State) : readResult v s = .refused .badAccess ↔ s.busy = true := by
  cases h : s.busy <;> simp [readResult, h]

theorem readObuf_refused_iff (i : Nat) (s : State) : readObuf i s = .refused .badAccess ↔ s.busy = true := by
  cases h : s.busy <;> cases hr : s.obuf.read i <;> simp [readObuf, h, hr]

/-- A read of CMD is refused, one of STATUS never, one of an operand under a held DECS, one of a result under BUSY. -/
theorem readReg_refused_iff (r : Reg) (s : State) :
    readReg r s = .refused .badAccess ↔
      r ≠ .status ∧ (awaitsReply s = true ∨
        ¬ (r = .arg ∨ r = .ibufLen) ∧
          (s.busy = true ∨ ¬ (r = .resVal ∨ r = .resCnt ∨ r = .xfail ∨ ∃ i, r = .obuf i))) := by
  have held_busy : awaitsReply s = true → s.busy = true := fun h => ((awaitsReply_iff s).1 h).1
  cases r with
  | cmd | status | arg | ibufLen => simp [readReg, readOperand_refused_iff]
  | resVal | resCnt | xfail => simpa [readReg, readResult_refused_iff] using held_busy
  | obuf i => simpa [readReg, readObuf_refused_iff] using held_busy

theorem step_wr_refused_iff {s : State} {off bits : Nat} {v : Word} {rest : List Turn}
    (h : s.schedule = .wr off bits v :: rest) :
    step s = .refused .badAccess ↔
      s.busy = true ∨ ¬ (regAccessed off bits = some .cmd ∨ regAccessed off bits = some .arg ∨
        regAccessed off bits = some .ibufLen) := by
  cases hr : regAccessed off bits with
  | none => simp [step_wr_unmapped h hr]
  | some r => simp [step_wr h hr, writeReg_refused_iff]

theorem step_rd_refused_iff {s : State} {off bits : Nat} {rest : List Turn}
    (h : s.schedule = .rd off bits :: rest) :
    step s = .refused .badAccess ↔
      regAccessed off bits ≠ some .status ∧ ((s.busy = true ∧ s.itOp = 0x4#4 ∧ s.source = []) ∨
        ¬ (regAccessed off bits = some .arg ∨ regAccessed off bits = some .ibufLen) ∧
          (s.busy = true ∨ ¬ (regAccessed off bits = some .resVal ∨ regAccessed off bits = some .resCnt ∨
            regAccessed off bits = some .xfail ∨ ∃ i, regAccessed off bits = some (.obuf i)))) := by
  cases hr : regAccessed off bits with
  | none => simp [step_rd_unmapped h hr]
  | some r => simp [step_rd h hr, readReg_refused_iff, awaitsReply_iff]

/-- Settles O4: which accesses are refused, by the register they reach, and where each register is reached. -/
theorem portRefusesExactlyBadAccesses : Obligations.PortRefusesExactlyBadAccesses := by
  refine ⟨fun s off bits v rest h => ?_, fun s off bits rest h => ?_⟩
  · rw [step_wr_refused_iff h]
    simp [regAccessed_iff, Reg.offset, Reg.width]
  · rw [step_rd_refused_iff h, regAccessed_obuf_iff]
    simp [regAccessed_iff, Reg.offset, Reg.width]

/-! ### What a read returns and a write does -/

theorem readResult_idle {s : State} (h : s.busy = false) (v : Word) : readResult v s = .next (seen v s) := by
  simp [readResult, h]

theorem readOperand_unheld {s : State} (h : ¬ (s.busy = true ∧ s.itOp = 0x4#4 ∧ s.source = [])) (v : Word) :
    readOperand v s = .next (seen v s) :=
  if_neg (mt (awaitsReply_iff s).1 h)

theorem readObuf_byte {s : State} {i : Nat} {b : Byte} (h : s.busy = false) (hr : s.obuf.read i = some b) :
    readObuf i s = .next (seen (b.setWidth 64) s) := by
  simp [readObuf, h, hr]

theorem readObuf_unwritten {s : State} {i : Nat} (h : s.busy = false) (hr : s.obuf.read i = none) :
    readObuf i s = .fault .unwrittenRead := by
  simp [readObuf, h, hr]

theorem writeReg_idle_cmd {s : State} (h : s.busy = false) (v : Word) :
    writeReg .cmd v s = .next (accept (v.setWidth 8) s) := by
  simp [writeReg, h]

theorem writeReg_idle_arg {s : State} (h : s.busy = false) (v : Word) :
    writeReg .arg v s = .next { s with arg := v } := by
  simp [writeReg, h]

theorem writeReg_idle_ibufLen {s : State} (h : s.busy = false) (v : Word) :
    writeReg .ibufLen v s = .next { s with ibufLen := v } := by
  simp [writeReg, h]

/-- Settles O5: offset 0x40 + i is OBUF[i], and the byte has no value. -/
theorem unwrittenObufReadFaults : Obligations.UnwrittenObufReadFaults := by
  intro s i rest hi hb hr h
  rw [step_rd h (regAccessed_obuf hi)]
  exact readObuf_unwritten hb hr

/-- Settles O6: each offset names its register, and a read that goes on only adds to the values seen. -/
theorem readReturnsRegisterAndChangesNothing : Obligations.ReadReturnsRegisterAndChangesNothing := by
  intro s off bits rest h
  refine ⟨?status, fun hheld => ?operands, fun hb => ?results⟩
  case status =>
    rintro rfl rfl
    exact step_rd h (r := .status) rfl
  case operands =>
    have operand := readOperand_unheld (s := { s with schedule := rest }) hheld
    refine ⟨?arg, ?ibufLen⟩ <;> rintro rfl rfl
    case arg => exact (step_rd h (r := .arg) rfl).trans (operand _)
    case ibufLen => exact (step_rd h (r := .ibufLen) rfl).trans (operand _)
  case results =>
    have result := readResult_idle (s := { s with schedule := rest }) hb
    refine ⟨?resVal, ?resCnt, ?xfail, ?obuf⟩
    case obuf =>
      rintro i b hi rfl rfl hr
      rw [step_rd h (regAccessed_obuf hi)]
      exact readObuf_byte hb hr
    all_goals rintro rfl rfl
    case resVal => exact (step_rd h (r := .resVal) rfl).trans (result _)
    case resCnt => exact (step_rd h (r := .resCnt) rfl).trans (result _)
    case xfail => exact (step_rd h (r := .xfail) rfl).trans (result _)

/-- Settles O7: offsets 0x10 and 0x18 are ARG and IBUF_LEN, and the idle block takes the value. -/
theorem operandWritesHaveNoOtherEffect : Obligations.OperandWritesHaveNoOtherEffect := by
  intro s v rest hb
  refine ⟨fun h => ?_, fun h => ?_⟩
  · rw [step_wr h (r := .arg) rfl, writeReg_idle_arg (s := { s with schedule := rest }) hb]
  · rw [step_wr h (r := .ibufLen) rfl, writeReg_idle_ibufLen (s := { s with schedule := rest }) hb]

/-! ### Acceptance (spec/10_state.md R31) -/

/-- A command word is its two fields (spec/30_encoding.md R80). -/
theorem cmdRsv_append_cmdOp (c : Byte) : cmdRsv c ++ cmdOp c = c := by
  revert c; decide

/-- Only a command's own word decodes to it (spec/30_encoding.md R81). -/
theorem encode_of_decodeCmd {c : Byte} {i : Instr} (h : decodeCmd c = .ok i) : encode i = c := by
  obtain ⟨hrsv, hop⟩ := decodeCmd_ok h
  rw [encode, ← opCode_of_decodeOp hop, ← hrsv, cmdRsv_append_cmdOp]

/-- The four command words of R81 are the commands' encodings. -/
theorem exists_encode_iff (c : Byte) :
    (∃ i, encode i = c) ↔ c = 0x01#8 ∨ c = 0x02#8 ∨ c = 0x03#8 ∨ c = 0x04#8 := by
  constructor
  · rintro ⟨i, rfl⟩
    cases i <;> decide
  · rintro (rfl | rfl | rfl | rfl)
    exacts [⟨.size, rfl⟩, ⟨.enc, rfl⟩, ⟨.decb, rfl⟩, ⟨.decs, rfl⟩]

/-- The idle block accepts the word written to CMD. -/
theorem step_wr_cmd {s : State} {v : Word} {rest : List Turn} (hb : s.busy = false)
    (h : s.schedule = .wr 0x00 8 v :: rest) : step s = .next (accept (v.setWidth 8) { s with schedule := rest }) := by
  rw [step_wr h (r := .cmd) rfl, writeReg_idle_cmd (s := { s with schedule := rest }) hb]

/-- Settles O14: a word is some command's encoding, or does not decode at all. -/
theorem acceptanceFollowsPseudocode : Obligations.AcceptanceFollowsPseudocode := by
  rintro s v c rest hb rfl h
  rw [← exists_encode_iff, step_wr_cmd hb h]
  constructor
  · rintro ⟨i, hi⟩
    refine ⟨_, rfl, ?_, i, hi, ?_⟩ <;> rw [← hi]
    · rw [accept_encode, extractLsb'_encode]
      rfl
    · rw [step_nil rfl]
      exact blockStep_of_itOp (accept_encode_busy i _) (accept_encode_itOp i _)
  · intro hillegal
    refine ⟨_, rfl, ?_⟩
    rcases accept_cases (v.setWidth 8) { s with schedule := rest } with ⟨ha, _⟩ | ⟨i, hi, _⟩
    · rw [ha]
      rfl
    · exact absurd ⟨i, encode_of_decodeCmd hi⟩ hillegal

end Sys2Proof.Machine
end

