-- ==== Sys2Proof/Proofs/ResetAndStatus.lean ====
section
/-! The reset values (spec/10_state.md R38, R39) and the layout of STATUS (R25). -/

namespace Sys2Proof.Machine

/-- Settles O1: each register by its own clause of R38. -/
theorem resetStateAsSpecified : Obligations.ResetStateAsSpecified :=
  ⟨rfl, rfl, rfl, rfl, rfl, rfl, rfl, rfl, rfl, fun i _ => Memory.read_nil i⟩

/-- Settles O3: what an OBUF byte reads as after a reset (`read_obufAtReset`). -/
theorem resetEventForgetsObuf : Obligations.ResetEventForgetsObuf := by
  intro s rest h
  refine ⟨resetBlock { s with schedule := rest }, by rw [step_cons h, takeTurn_reset], fun i hlost => ?_⟩
  rw [resetBlock_obuf, read_obufAtReset, if_neg]
  rintro ⟨hrun, hi⟩
  obtain ⟨hb, ho⟩ := (running_iff ..).1 hrun
  exact hlost ⟨hb, ho, hi⟩

/-- The four fields of a byte made as `statusByte` makes it, for all 64 values of DONE, BUSY and CODE. -/
theorem status_fields : ∀ (done busy : Bool) (code : BitVec 4),
    let b : Byte := 0#2 ++ BitVec.ofBool done ++ BitVec.ofBool busy ++ code
    b.extractLsb' 0 4 = code ∧ b.getLsbD 4 = busy ∧ b.getLsbD 5 = done ∧ b.extractLsb' 6 2 = 0#2 := by
  decide

/-- Settles O8: the fields for every STATUS, and each code's number as `codeBits` lists it. -/
theorem statusByteLayout : Obligations.StatusByteLayout :=
  ⟨fun s => status_fields s.done s.busy (codeBits s.code), rfl, rfl, rfl, rfl, rfl, rfl, rfl, rfl⟩

end Sys2Proof.Machine
end

