-- ==== Sys2Proof/Proofs/CallerBuffer.lean ====
section
/-! The caller's input buffer (spec/20_memory.md R52, R54): only the host's stores change it, which of them are refused,
and where DECB's reads of it give no byte. -/

namespace Sys2Proof.Machine

/-! ### Host stores (spec/20_memory.md R52, R54) -/

/-- Only a host's store inside IBUF_CAP changes IBUF; the block never does. -/
theorem step_ibuf {s t : State} (h : step s = .next t) :
    t.ibuf = s.ibuf ∨
      ∃ i b rest, s.schedule = .ibuf i b :: rest ∧ i < s.ibufCap ∧ t.ibuf = s.ibuf.write i b := by
  rcases step_kinds h with ⟨_, _, _, _, rfl⟩ | ⟨_, _, _, _, rfl⟩ | ⟨_, _, _, _, rfl⟩ | ⟨_, _, rfl⟩ |
    ⟨i, b, rest, hs, hi, _, rfl⟩ | ⟨_, _, rfl⟩ | ⟨_, _, _, rfl⟩ | ⟨_, _, rfl⟩ | ⟨_, _, _, _, he⟩
  · exact .inl (by rw [accept_frame])
  · exact .inl rfl
  · exact .inl rfl
  · exact .inl rfl
  · exact .inr ⟨i, b, rest, hs, hi, rfl⟩
  · exact .inl rfl
  · exact .inl rfl
  · exact .inl rfl
  · exact .inl (by rw [exec_frame he])

/-- Settles O48: a store at another offset leaves the byte as it was. -/
theorem ibufChangesOnlyByHost : Obligations.IbufChangesOnlyByHost := by
  intro s t a h hne
  rcases step_ibuf h with hsame | ⟨i, b, rest, hs, hi, hwrite⟩
  · exact absurd (by rw [hsame]) hne
  · have ha : a = i := by
      by_contra hother
      exact hne (by rw [hwrite, Memory.read_write_other _ _ (Ne.symm hother)])
    subst ha
    exact ⟨b, rest, hs, hi, by rw [hwrite, Memory.read_write_same]⟩

/-- The stores that R220 forbids while a DECB runs (log entry 11). -/
theorem disturbsDecb_iff (i : Nat) (b : Byte) (s : State) :
    disturbsDecb i b s = true ↔ s.busy = true ∧ s.itOp = 0x3#4 ∧ i ≤ 9 ∧ s.ibuf.read i ≠ some b := by
  simp [disturbsDecb, running, opCode, and_assoc, Nat.lt_succ_iff]

/-- Inside the buffer, a store under a held DECS or one that disturbs a DECB is refused. -/
theorem storeIbuf_refused {i : Nat} {b : Byte} {s : State} (hi : i < s.ibufCap)
    (h : awaitsReply s = true ∨ disturbsDecb i b s = true) : storeIbuf i b s = .refused .badAccess := by
  unfold storeIbuf
  split
  · rfl
  · rename_i hheld
    rw [if_neg (Nat.not_le.2 hi), if_pos (h.resolve_left hheld)]

/-- Inside the buffer, any other store lands. -/
theorem storeIbuf_lands {i : Nat} {b : Byte} {s : State} (hi : i < s.ibufCap) (hheld : ¬ awaitsReply s = true)
    (hdisturbs : ¬ disturbsDecb i b s = true) : storeIbuf i b s = .next { s with ibuf := s.ibuf.write i b } := by
  rw [storeIbuf, if_neg hheld, if_neg (Nat.not_le.2 hi), if_neg hdisturbs]

/-- Settles O9: the two grounds of refusal by their registers, and read after write for a store that lands. -/
theorem ibufStoreRefusedOnlyUnderDecb : Obligations.IbufStoreRefusedOnlyUnderDecb := by
  intro s i b rest h hi
  rw [step_cons h, takeTurn_ibuf]
  refine ⟨fun hb ho hlow hne => ?_, fun hb ho hsource => ?_, fun hheld hdisturbs => ?_⟩
  · exact storeIbuf_refused hi (.inr ((disturbsDecb_iff ..).2 ⟨hb, ho, hlow, hne⟩))
  · exact storeIbuf_refused hi (.inl ((awaitsReply_iff _).2 ⟨hb, ho, hsource⟩))
  · exact ⟨_, storeIbuf_lands hi (mt (awaitsReply_iff _).1 hheld) (mt (disturbsDecb_iff ..).1 hdisturbs),
      Memory.read_write_same .., fun j hj => Memory.read_write_other _ b (Ne.symm hj)⟩

/-! ### DECB's reads -/

/-- Settles O26: the two ways a read of IBUF gives DECB no byte. -/
theorem decbReadsIbufByTheRules : Obligations.DecbReadsIbufByTheRules :=
  fun _ hlen => ⟨execDecb_noStep hlen, execDecb_unwritten hlen⟩

end Sys2Proof.Machine
end

