-- ==== Sys2Proof/Proofs/RunningOperation.lean ====
section
/-! What a step changes while its operation still runs, the one byte that ENC stores, and the machines of a system that
a step of one of them leaves alone. -/

namespace Sys2Proof.Machine

/-! ### ENC's byte -/

/-- The byte ENC emits carries the low chunk of the value in its bits 6:0 (spec/41_encoder.md R121). -/
theorem encByte_and_mask (r : Word) : encByte r &&& 0x7F#8 = (r.extractLsb' 0 7).setWidth 8 := by
  have low (c : BitVec 7) : c.setWidth 8 &&& 0x7F#8 = c.setWidth 8 ∧
      withContinuation (c.setWidth 8) &&& 0x7F#8 = c.setWidth 8 := by
    revert c; decide
  unfold encByte
  split
  · exact (low _).2
  · exact (low _).1

/-- Settles O22: ENC's byte goes to OBUF[it_idx], and its frame names no other register (`execEnc_frame`). -/
theorem encStoresOneByte : Obligations.EncStoresOneByte := by
  intro s t h
  have hobuf : t.obuf = s.obuf.write s.itIdx.toNat (encByte s.itRem) := by
    obtain ⟨_, rfl⟩ := execEnc_cases h
    exact encAdvance_obuf _
  refine ⟨⟨encByte s.itRem, ?_, encByte_and_mask _⟩, fun a ha => ?_, ?_⟩
  · rw [hobuf, Memory.read_write_same]
  · rw [hobuf, Memory.read_write_other _ _ (Ne.symm ha)]
  · rw [execEnc_frame h]
    simp

/-! ### A step that does not complete -/

/-- A byte that does not end its encoding changes the iteration registers alone. -/
theorem examine_frame_of_busy {b : Byte} {s : State} (hb : (examine b s).busy = true) :
    examine b s = { s with itIdx := (examine b s).itIdx, itAcc := (examine b s).itAcc } := by
  rcases examine_cases b s with ⟨_, h⟩ | ⟨_, _, h⟩ | ⟨_, _, _, h⟩ | ⟨_, _, _, h⟩ <;> rw [h] at hb ⊢
  -- The byte accumulated changes just these two; the other three cases complete.
  all_goals cases hb

/-- A step after which the operation still runs changes OBUF, the source and the iteration registers at most. -/
theorem exec_frame_of_busy {i : Instr} {s t : State} (h : exec i s = .next t) (hb : t.busy = true) :
    t = { s with obuf := t.obuf, itIdx := t.itIdx, itRem := t.itRem, itAcc := t.itAcc, source := t.source } := by
  cases i with
  | size => cases h; cases hb
  | enc =>
    obtain ⟨_, rfl⟩ := execEnc_cases h
    unfold encAdvance at hb ⊢
    split at hb
    · cases hb
    · rename_i hmore
      rw [if_neg hmore]
  | decb =>
    rcases execDecb_cases h with ⟨_, rfl⟩ | ⟨_, _, rfl⟩ | ⟨_, _, b, _, rfl⟩
    · cases hb
    · rfl
    · rw [examine_frame_of_busy hb]
  | decs =>
    rcases execDecs_cases h with ⟨_, rfl⟩ | ⟨r, rest, _, rfl⟩
    · rfl
    · cases r with
      | byte b =>
        rw [takeReply_byte] at hb ⊢
        rw [examine_frame_of_busy hb]
      | endOfInput => cases hb
      | fail c => cases hb

/-- Settles O49: acceptance needs an idle block, a reset leaves one, and a step of the operation that goes on keeps the
results (`exec_frame_of_busy`). -/
theorem resultsAppearOnlyAtCompletion : Obligations.ResultsAppearOnlyAtCompletion := by
  intro s t h hs ht
  rcases step_cases_of_block h with ⟨_, _, _, hidle, _⟩ | ⟨_, _, rfl⟩ | ⟨_, i, _, _, he⟩ | hframe
  · rw [hs] at hidle; cases hidle
  · cases ht
  · rw [exec_frame_of_busy he ht]
    simp
  · rw [hframe]
    simp

/-! ### Several machines (spec/20_memory.md R68) -/

/-- Settles O52: the step replaces element `k` of the list of machines. -/
theorem instancesAreIndependent : Obligations.InstancesAreIndependent := by
  intro k sys s t hk h
  obtain ⟨hlt, _⟩ := List.getElem?_eq_some_iff.1 hk
  refine ⟨sys.set k t, by simp only [stepInstance, hk, h], List.getElem?_set_self hlt, fun j hj => ?_⟩
  exact List.getElem?_set_ne (Ne.symm hj)

end Sys2Proof.Machine
end

