-- ==== Sys2Proof/Proofs/EndlessRuns.lean ====
section
/-! Runs of every length (log entry 4): what every step keeps holds along a run. A DECB past IBUF_CAP stays one. -/

namespace Sys2Proof.Machine

/-! ### Runs -/

/-- With every turn the block's, a step is a step of the operation in progress. -/
theorem step_of_itOp {s : State} {i : Instr} (hs : s.schedule = []) (hb : s.busy = true) (ho : s.itOp = opCode i) :
    step s = exec i s :=
  (step_nil hs).trans (blockStep_of_itOp hb ho)

/-- What holds at first, and of a next state at every step, holds after a run of any length. -/
theorem run_of_step {P : State → Prop} (hstep : ∀ s, P s → ∃ t, step s = .next t ∧ P t) (k : Nat) :
    ∀ s, P s → ∃ t : State, Sys2Proof.core.run k s = .next t ∧ P t := by
  induction k with
  | zero => exact fun s h => ⟨s, rfl, h⟩
  | succ k ih =>
    intro s h
    obtain ⟨u, hu, hPu⟩ := hstep s h
    rw [run_succ_next hu]
    exact ih u hPu

/-- A byte with its continuation bit set, before the tenth, is accumulated (spec/42_decoder.md R150). -/
theorem examine_continuation {b : Byte} {s : State} (hi : s.itIdx.toNat ≠ 9) (hb : 0x80#8 ≤ b) :
    examine b s = { s with itAcc := accumulate b s, itIdx := s.itIdx + 1#4 } := by
  have hover : overflows b s.itIdx.toNat = false := by simp [overflows, hi]
  have hcont : continues b = true := (continues_iff b).2 hb
  simp [examine, hover, hcont]

/-! ### A DECB past the buffer's capacity (spec/20_memory.md R52) -/

/-- A DECB that has met only continuation bytes, will meet no other below IBUF_CAP, and has a length beyond it. -/
structure DecbRunsPastCapacity (s : State) : Prop where
  schedule : s.schedule = []
  busy : s.busy = true
  itOp : s.itOp = opCode .decb
  idx : s.itIdx.toNat ≤ s.ibufCap
  cap : s.ibufCap ≤ 9
  len : s.ibufCap < s.itLen.toNat
  bytes : ∀ i < s.ibufCap, ∃ b, s.ibuf.read i = some b ∧ 0x80#8 ≤ b

/-- It moves on to the next byte below IBUF_CAP, and holds there (log entry 4). -/
theorem DecbRunsPastCapacity.step {s : State} (h : DecbRunsPastCapacity s) :
    ∃ t, step s = .next t ∧ DecbRunsPastCapacity t := by
  have hlen : s.itIdx.toNat < s.itLen.toNat := h.idx.trans_lt h.len
  rw [step_of_itOp h.schedule h.busy h.itOp]
  rcases Nat.lt_or_eq_of_le h.idx with hlt | hcap
  · obtain ⟨b, hr, hb⟩ := h.bytes _ hlt
    have hidx : s.itIdx.toNat < 9 := hlt.trans_le h.cap
    have hnext : exec .decb s = .next { s with itAcc := accumulate b s, itIdx := s.itIdx + 1#4 } :=
      (execDecb_byte hlen hlt hr).trans (congrArg _ (examine_continuation hidx.ne hb))
    exact ⟨_, hnext, { h with idx := (idx_succ_toNat hidx.le).trans_le hlt }⟩
  · exact ⟨s, execDecb_noStep hlen hcap.ge, h⟩

/-- Settles O34: an accepted DECB starts such an operation, and every step keeps it one. -/
theorem decbPastCapacityNeverCompletes : Obligations.DecbPastCapacityNeverCompletes := by
  intro s _ hcap hlen hbytes k
  have hstart : DecbRunsPastCapacity (started .decb s) := by
    rw [started_eq]
    exact ⟨rfl, rfl, rfl, Nat.zero_le _, hcap, hlen, hbytes⟩
  obtain ⟨u, hrun, hu⟩ := run_of_step (fun _ => DecbRunsPastCapacity.step) k _ hstart
  exact ⟨u, hrun, hu.busy⟩

end Sys2Proof.Machine
end

