-- ==== Sys2Proof/Proofs/StreamRuns.lean ====
section
/-! DECS from acceptance to completion (spec/42_decoder.md R152, R154). Each reply taken is followed in `decodeStream`:
it ends both, or leaves the same result ahead of both. -/

namespace Sys2Proof.Machine

/-! ### decodeStream (spec/42_decoder.md R154) -/

/-- A byte decoded by `decodeStreamFrom`, in the cases of `examine_cases`. -/
theorem decodeStreamFrom_byte (failW i : Nat) (acc : Word) (b : Byte) (rs : List Reply) :
    decodeStreamFrom failW i acc (.byte b :: rs) =
      if overflows b i then some ⟨.error .overflow, 0#64, i + 1⟩
      else if continues b then decodeStreamFrom failW (i + 1) (acc ||| contribution b i) rs
      else if endsNonMinimal b i then some ⟨.error .notMinimal, 0#64, i + 1⟩
      else some ⟨⟨.ok, acc ||| contribution b i, i + 1⟩, 0#64, i + 1⟩ := by
  simp only [decodeStreamFrom, continues_iff]

/-- Decoding at most ten bytes, a stream decode pulls one to ten replies; its count is that of its pulls on success and
0 on an error (spec/42_decoder.md R149, R155). -/
theorem decodeStreamFrom_pulled {failW i : Nat} {acc : Word} {rs : List Reply} {r : StreamResult} (hi : i ≤ 9)
    (h : decodeStreamFrom failW i acc rs = some r) :
    i < r.pulled ∧ r.pulled ≤ 10 ∧ r.result.count = if r.result.status = .ok then r.pulled else 0 := by
  have last : i < i + 1 ∧ i + 1 ≤ 10 := by omega
  induction rs generalizing i acc with
  | nil => cases h
  | cons reply rs ih =>
    cases reply with
    | endOfInput =>
      cases h
      refine ⟨last.1, last.2, ?_⟩
      by_cases h0 : i = 0 <;> simp [DecodeResult.error, h0]
    | fail c =>
      cases h
      exact ⟨last.1, last.2, rfl⟩
    | byte b =>
      rw [decodeStreamFrom_byte] at h
      split_ifs at h with hover hcont hmin
      · cases h
        exact ⟨last.1, last.2, rfl⟩
      · have hne : i ≠ 9 := fun h9 => hover (h9 ▸ overflows_of_continues hcont)
        obtain ⟨hlt, hle, hcount⟩ := ih (i := i + 1) (by omega) h (by omega)
        exact ⟨by omega, hle, hcount⟩
      · cases h
        exact ⟨last.1, last.2, rfl⟩
      · cases h
        exact ⟨last.1, last.2, rfl⟩

/-! ### DECS follows decodeStream -/

/-- A DECS in progress, with every turn the block's and no failure reported. -/
structure DecsRuns (s : State) : Prop where
  schedule : s.schedule = []
  busy : s.busy = true
  itOp : s.itOp = opCode .decs
  xfail : s.xfail = 0#64
  idx : s.itIdx.toNat ≤ 9

/-- The decode of the replies `rs` from where DECS stands. -/
def decodeAhead (s : State) (rs : List Reply) : Option StreamResult :=
  decodeStreamFrom s.failW s.itIdx.toNat s.itAcc rs

/-- `s` after `k` pulls and the report of `r`. -/
def streamReported (k : Nat) (r : StreamResult) (s : State) : State :=
  { s with
    code := r.result.status, busy := false, done := true, resVal := r.result.value,
    resCnt := BitVec.ofNat 8 r.result.count, xfail := r.xfail, source := s.source.drop k }

theorem streamReported_succ {s : State} {reply : Reply} {rest : List Reply} (h : s.source = reply :: rest) (k : Nat)
    (r : StreamResult) : streamReported (k + 1) r s = streamReported k r { s with source := rest } := by
  simp [streamReported, h]

/-- The count reported at it_idx (spec/10_state.md R27). -/
theorem count_at_idx {idx : BitVec 4} (h : idx.toNat ≤ 9) :
    (idx + 1#4).setWidth 8 = BitVec.ofNat 8 (idx.toNat + 1) := by
  refine BitVec.eq_of_toNat_eq ?_
  rw [BitVec.toNat_setWidth_of_le (by decide), idx_succ_toNat h, BitVec.toNat_ofNat, Nat.mod_eq_of_lt (by omega)]

/-- END's status is by whether it comes at the first pull (spec/42_decoder.md R153). -/
theorem endStatus_eq (idx : BitVec 4) :
    endStatus idx = if idx.toNat = 0 then .cleanEnd else .unexpectedEnd := by
  simp [endStatus, BitVec.toNat_eq]

/-- DECS at `s`, with the result `r` ahead, comes to `t` by one more reply, and `rs` are the replies after it: `r` is
reported, or it is still ahead at the next byte. -/
def FollowsDecode (r : StreamResult) (rs : List Reply) (s t : State) : Prop :=
  (r.pulled = s.itIdx.toNat + 1 ∧ EqualUpToIteration t (streamReported 0 r s)) ∨
  (∃ acc, t = { s with itAcc := acc, itIdx := s.itIdx + 1#4 } ∧ DecsRuns t ∧ decodeAhead t rs = some r)

/-- A BYTE reply is examined by DECS as by `decodeStream`. -/
theorem DecsRuns.examine_follows {s : State} (h : DecsRuns s) {b : Byte} {rs : List Reply} {r : StreamResult}
    (hr : decodeAhead s (.byte b :: rs) = some r) : FollowsDecode r rs s (examine b s) := by
  have hx := h.xfail
  have hi := h.idx
  rw [decodeAhead, decodeStreamFrom_byte] at hr
  rcases examine_cases b s with ⟨hover, he⟩ | ⟨hover, hcont, he⟩ | ⟨hover, hcont, hmin, he⟩ |
    ⟨hover, hcont, hmin, he⟩ <;> rw [he]
  · simp only [hover, if_true] at hr
    cases hr
    exact .inl ⟨rfl, by rw [streamReported, ← hx]; rfl⟩
  · have hne : s.itIdx.toNat ≠ 9 := fun h9 => by
      rw [h9, overflows_of_continues hcont] at hover
      cases hover
    have hsucc := idx_succ_toNat hi
    simp only [hover, hcont, if_true] at hr
    exact .inr ⟨_, rfl, { h with idx := hsucc.trans_le (by omega) }, by rw [decodeAhead, hsucc]; exact hr⟩
  · simp only [hover, hcont, hmin, if_true] at hr
    cases hr
    exact .inl ⟨rfl, by rw [streamReported, ← hx]; rfl⟩
  · simp only [hover, hcont, hmin] at hr
    cases hr
    exact .inl ⟨rfl, by rw [streamReported, ← count_at_idx hi, ← hx]; rfl⟩

/-- DECS takes every reply as `decodeStream` does. -/
theorem DecsRuns.takeReply_follows {s : State} (h : DecsRuns s) {reply : Reply} {rs : List Reply} {r : StreamResult}
    (hr : decodeAhead s (reply :: rs) = some r) : FollowsDecode r rs s (takeReply reply s) := by
  cases reply with
  | byte b => exact h.examine_follows hr
  | endOfInput =>
    cases hr
    exact .inl ⟨rfl, by rw [streamReported, ← endStatus_eq, ← h.xfail]; rfl⟩
  | fail c =>
    cases hr
    exact .inl ⟨rfl, rfl⟩

/-- DECS completes, with the result ahead of it, after the pulls that `decodeStream` still makes. -/
theorem DecsRuns.completes {r : StreamResult} {k : Nat} {s : State} (h : DecsRuns s)
    (hr : decodeAhead s s.source = some r) (hk : s.itIdx.toNat + k = r.pulled) :
    ∃ t, CompletesIn k s t ∧ EqualUpToIteration t (streamReported k r s) := by
  induction k generalizing s with
  | zero =>
    have hpulled := (decodeStreamFrom_pulled h.idx hr).1
    omega
  | succ k ih =>
    cases hs : s.source with
    | nil => rw [hs] at hr; cases hr
    | cons reply rest =>
      have hstep : step s = .next (takeReply reply { s with source := rest }) :=
        (step_of_itOp h.schedule h.busy h.itOp).trans (execDecs_reply hs)
      have hpulled : DecsRuns { s with source := rest } := { h with }
      rw [hs] at hr
      rw [streamReported_succ hs]
      rcases hpulled.takeReply_follows hr with ⟨hlast, heq⟩ | ⟨acc, ht, hruns, hahead⟩
      · have hk0 : k = 0 := by simp only at hlast; omega
        subst hk0
        exact ⟨_, (CompletesIn.zero (congrArg State.busy heq)).step h.busy hstep, heq⟩
      · rw [ht] at hstep hruns hahead
        have hidx := idx_succ_toNat h.idx
        obtain ⟨t, hc, heq⟩ := ih hruns hahead (by simp only; omega)
        exact ⟨t, hc.step h.busy hstep, heq⟩

/-- Settles O38: an accepted DECS has all of `decodeStream` ahead of it. -/
theorem decsRunMatchesDecodeStream : Obligations.DecsRunMatchesDecodeStream := by
  intro s r _ hr
  obtain ⟨hpos, hten, hcount⟩ := decodeStreamFrom_pulled (Nat.zero_le 9) hr
  have hstart : DecsRuns (started .decs s) := by
    rw [started_eq]
    exact ⟨rfl, rfl, rfl, rfl, Nat.zero_le 9⟩
  have hahead : decodeAhead (started .decs s) (started .decs s).source = some r := by
    rw [started_eq]
    exact hr
  obtain ⟨t, hc, heq⟩ := hstart.completes (k := r.pulled) hahead (by rw [started_eq]; exact Nat.zero_add _)
  rw [started_eq] at heq
  have hcnt : t.resCnt = BitVec.ofNat 8 r.result.count := congrArg State.resCnt heq
  have hcode : t.code = r.result.status := congrArg State.code heq
  refine ⟨t, hc, hpos, hten, congrArg State.done heq, hcode, congrArg State.resVal heq, ?count,
    congrArg State.xfail heq, congrArg State.source heq, fun hne => ?error, ?frame⟩
  case count =>
    have hle : r.result.count ≤ 10 := by rw [hcount]; split <;> omega
    rw [hcnt, BitVec.toNat_ofNat, Nat.mod_eq_of_lt (by omega)]
  case error =>
    rw [hcnt, hcount, if_neg (hcode ▸ hne)]
  case frame =>
    rw [heq]
    exact ⟨rfl, rfl, rfl, rfl⟩

end Sys2Proof.Machine
end

