-- ==== Sys2Proof/Proofs/WireFormat.lean ====
section
/-! The wire format (spec/30_encoding.md R70, R75). `WireFrom` follows a byte sequence as the decoder does; it is what
`wireOk` accepts, what decodes with OK to its last byte, and what `wireEncode` gives. -/

namespace Sys2Proof.Machine

/-- The bytes from index `i` on end an encoding that the decoder accepts: each byte but the last continues, and none
overflows or ends a non-minimal encoding (spec/42_decoder.md R143, R145). -/
def WireFrom (i : Nat) : List Byte → Prop
  | [] => False
  | b :: bs =>
    overflows b i = false ∧
      (continues b = true ∧ WireFrom (i + 1) bs ∨ continues b = false ∧ endsNonMinimal b i = false ∧ bs = [])

/-! ### What the decoder's checks of a byte say -/

theorem overflows_eq_false {b : Byte} {i : Nat} : overflows b i = false ↔ (i = 9 → b ≤ 0x01#8) := by
  simp [overflows, BitVec.not_lt]

theorem endsNonMinimal_eq_false {b : Byte} {i : Nat} : endsNonMinimal b i = false ↔ (0 < i → b ≠ 0x00#8) := by
  simp [endsNonMinimal, not_imp_not, Nat.pos_iff_ne_zero]

theorem continues_eq_false {b : Byte} : continues b = false ↔ b < 0x80#8 := by
  rw [← BitVec.not_le, ← continues_iff, Bool.not_eq_true]

/-- No tenth byte continues (spec/42_decoder.md R143). -/
theorem lt_nine_of_continues {b : Byte} {i : Nat} (hi : i ≤ 9) (hover : overflows b i = false)
    (hcont : continues b = true) : i < 9 := by
  refine hi.lt_of_ne ?_
  rintro rfl
  rw [overflows_of_continues hcont] at hover
  cases hover

/-! ### The five conditions of R75 -/

/-- R75 for the bytes `init` and a last byte `b`, the first of them at index `i`. -/
def WireConditions (i : Nat) (init : List Byte) (b : Byte) : Prop :=
  i + init.length ≤ 9 ∧ (∀ x ∈ init, 0x80#8 ≤ x) ∧ b < 0x80#8 ∧ (0 < i + init.length → b ≠ 0x00#8) ∧
    (i + init.length = 9 → b ≤ 0x01#8)

theorem wireTenthOk_append_singleton {init : List Byte} (h : init.length ≤ 9) (b : Byte) :
    wireTenthOk (init ++ [b]) = true ↔ (init.length = 9 → b ≤ 0x01#8) := by
  unfold wireTenthOk
  rcases h.lt_or_eq with hlt | heq
  · simp [hlt, hlt.ne]
  · simp [← heq]

theorem wireOk_append_singleton (init : List Byte) (b : Byte) :
    wireOk (init ++ [b]) = true ↔ WireConditions 0 init b := by
  have hlength : wireLengthOk (init ++ [b]) = true ↔ init.length ≤ 9 := by
    simp [wireLengthOk, Nat.lt_succ_iff]
  have hcontinues : wireContinues (init ++ [b]) = true ↔ ∀ x ∈ init, 0x80#8 ≤ x := by simp [wireContinues]
  have hterminates : wireTerminates (init ++ [b]) = true ↔ b < 0x80#8 := by simp [wireTerminates]
  have hminimal : wireMinimal (init ++ [b]) = true ↔ (0 < init.length → b ≠ 0x00#8) := by
    simp [wireMinimal, List.length_pos_iff, or_iff_not_imp_left]
  simp only [wireOk, Bool.and_eq_true, and_assoc, hlength, hcontinues, hterminates, hminimal, WireConditions,
    Nat.zero_add]
  exact and_congr_right fun h => by rw [wireTenthOk_append_singleton h]

theorem wireFrom_append_singleton {i : Nat} (hi : i ≤ 9) (init : List Byte) (b : Byte) :
    WireFrom i (init ++ [b]) ↔ WireConditions i init b := by
  induction init generalizing i with
  | nil =>
    simp only [List.nil_append, WireFrom, WireConditions, overflows_eq_false, endsNonMinimal_eq_false,
      continues_eq_false, List.length_nil, List.not_mem_nil]
    tauto
  | cons x init ih =>
    have hlen : i + (x :: init).length = i + 1 + init.length := by rw [List.length_cons]; omega
    have hne : init ++ [b] ≠ [] := List.append_ne_nil_of_right_ne_nil _ (List.cons_ne_nil _ _)
    simp only [List.cons_append, WireFrom, WireConditions, hne, and_false, or_false, hlen, List.forall_mem_cons,
      ← continues_iff x]
    constructor
    · rintro ⟨hover, hcont, hrest⟩
      obtain ⟨hle, hinit, hlast⟩ := (ih (lt_nine_of_continues hi hover hcont)).1 hrest
      exact ⟨hle, ⟨hcont, hinit⟩, hlast⟩
    · rintro ⟨hle, ⟨hcont, hinit⟩, hlast⟩
      exact ⟨overflows_eq_false.2 (by omega), hcont, (ih (by omega)).2 ⟨hle, hinit, hlast⟩⟩

theorem wireOk_iff_wireFrom (bs : List Byte) : wireOk bs = true ↔ WireFrom 0 bs := by
  rcases List.eq_nil_or_concat' bs with rfl | ⟨init, b, rfl⟩
  · simp [WireFrom, wireOk, wireLengthOk]
  · rw [wireOk_append_singleton, wireFrom_append_singleton (Nat.zero_le 9)]

/-- The bytes before the last are those at the positions before the last. -/
theorem forall_init_iff {P : Byte → Prop} (init : List Byte) (b : Byte) :
    (∀ i x, (init ++ [b])[i]? = some x → i + 1 < (init ++ [b]).length → P x) ↔ ∀ x ∈ init, P x := by
  constructor
  · intro h x hx
    obtain ⟨i, hi, rfl⟩ := List.mem_iff_getElem.1 hx
    exact h i _ (by rw [List.getElem?_append_left hi, List.getElem?_eq_getElem hi]) (by simpa using hi)
  · intro h i x hx hi
    rw [List.getElem?_append_left (by simpa using hi)] at hx
    exact h x (List.mem_of_getElem? hx)

/-- R75 by the position of each byte. -/
theorem wireOk_iff_positions (bs : List Byte) :
    wireOk bs = true ↔
      (1 ≤ bs.length ∧ bs.length ≤ 10) ∧ (∀ i b, bs[i]? = some b → i + 1 < bs.length → 0x80#8 ≤ b) ∧
        (∀ b, bs[bs.length - 1]? = some b → b < 0x80#8 ∧ (1 < bs.length → b ≠ 0x00#8) ∧
          (bs.length = 10 → b ≤ 0x01#8)) := by
  rcases List.eq_nil_or_concat' bs with rfl | ⟨init, b, rfl⟩
  · simp [wireOk, wireLengthOk]
  · rw [wireOk_append_singleton, forall_init_iff, WireConditions]
    simp [Nat.lt_succ_iff]

/-! ### The encoding, byte by byte (spec/30_encoding.md R70, spec/41_encoder.md R121) -/

theorem shift_toNat (v : Word) : (v >>> 7).toNat = v.toNat / 2 ^ 7 := by
  rw [BitVec.toNat_ushiftRight, Nat.shiftRight_eq_div_pow]

/-- Nothing remains after the low chunk exactly when the value has at most seven bits. -/
theorem shift_eq_zero_iff (v : Word) : v >>> 7 = 0#64 ↔ v.toNat < 2 ^ 7 := by
  rw [← BitVec.toNat_inj, shift_toNat, BitVec.toNat_ofNat]
  omega

theorem bitlen_shift (v : Word) : bitlen (v >>> 7) = bitlen v - 7 := by
  have same_bounds (b : Nat) : bitlen (v >>> 7) ≤ b ↔ bitlen v - 7 ≤ b := by
    rw [tsub_le_iff_right, bitlen_le_iff, bitlen_le_iff, shift_toNat, Nat.div_lt_iff_lt_mul (by decide), Nat.pow_add]
  exact ((same_bounds _).2 le_rfl).antisymm ((same_bounds _).1 le_rfl)

theorem size_of_last {v : Word} (h : v >>> 7 = 0#64) : size v = 1 :=
  ((size_le_iff v le_rfl).2 ((shift_eq_zero_iff v).1 h)).antisymm (size_pos v)

theorem size_of_more {v : Word} (h : v >>> 7 ≠ 0#64) : size v = size (v >>> 7) + 1 := by
  have hbits : ¬ bitlen v ≤ 7 := by rwa [bitlen_le_iff, ← shift_eq_zero_iff]
  rw [size, size, bitlen_shift]
  omega

theorem chunk_succ (v : Word) (i : Nat) : chunk v (i + 1) = chunk (v >>> 7) i := by
  ext j hj
  simp [chunk, Nat.mul_succ, Nat.add_comm, Nat.add_left_comm]

/-- The encoding is the byte that ENC emits, and the encoding of what then remains, if anything does. -/
theorem wireEncode_eq (v : Word) :
    wireEncode v = encByte v :: if v >>> 7 = 0#64 then [] else wireEncode (v >>> 7) := by
  split
  · rename_i hlast
    simp [wireEncode, size_of_last hlast, wireByte, encByte, hlast]
  · rename_i hmore
    have hpos := size_pos (v >>> 7)
    have hfirst : wireByte v 0 = encByte v := by
      rw [wireByte, encByte, if_pos hmore, if_pos (by rw [size_of_more hmore]; omega)]
    have hnext (i : Nat) : wireByte v (i + 1) = wireByte (v >>> 7) i := by
      simp only [wireByte, size_of_more hmore, chunk_succ, Nat.add_lt_add_iff_right]
    simp only [wireEncode, size_of_more hmore, List.range_succ_eq_map, List.map_cons, List.map_map, hfirst,
      Function.comp_def, Nat.succ_eq_add_one, hnext]

theorem wireEncode_ne_nil (v : Word) : wireEncode v ≠ [] := by
  rw [wireEncode_eq]
  exact List.cons_ne_nil _ _

theorem wireEncode_eq_cons_iff {v : Word} {b : Byte} {bs : List Byte} :
    wireEncode v = b :: bs ↔
      encByte v = b ∧ (v >>> 7 = 0#64 ∧ bs = [] ∨ v >>> 7 ≠ 0#64 ∧ wireEncode (v >>> 7) = bs) := by
  rw [wireEncode_eq, List.cons.injEq]
  by_cases h : v >>> 7 = 0#64 <;> simp [h, eq_comm]

/-! ### The value of an encoding -/

/-- A value is its low chunk and its rest. -/
theorem lowChunk_or_shift (v : Word) : (v.extractLsb' 0 7).setWidth 64 ||| (v >>> 7) <<< 7 = v := by
  ext j hj
  by_cases hlow : j < 7
  · simp [hlow, hj]
  · simp [hlow, Nat.add_sub_cancel' (Nat.not_lt.1 hlow), hj]

/-- The byte emitted contributes the low chunk of its value. -/
theorem contribution_encByte (v : Word) (i : Nat) :
    contribution (encByte v) i ||| (v >>> 7) <<< (7 * (i + 1)) = v <<< (7 * i) := by
  have hlow : ((v.extractLsb' 0 7).setWidth 8).setWidth 64 = (v.extractLsb' 0 7).setWidth 64 := by simp
  rw [contribution, encByte_and_mask, hlow, Nat.mul_succ, Nat.add_comm, BitVec.shiftLeft_add,
    ← BitVec.shiftLeft_or_distrib, lowChunk_or_shift]

/-- The bytes of an encoding stand for its value, shifted to where they stand. -/
theorem wireValueFrom_of_wireEncode {v : Word} {bs : List Byte} (h : wireEncode v = bs) (i : Nat) :
    wireValueFrom i bs = v <<< (7 * i) := by
  induction bs generalizing v i with
  | nil => exact absurd h (wireEncode_ne_nil v)
  | cons b bs ih =>
    obtain ⟨rfl, ⟨hlast, rfl⟩ | ⟨_, hrest⟩⟩ := wireEncode_eq_cons_iff.1 h <;>
      rw [wireValueFrom, ← contribution_encByte]
    · simp [wireValueFrom, hlast]
    · rw [ih hrest]

theorem wireValue_of_wireEncode {v : Word} {bs : List Byte} (h : wireEncode v = bs) : v = wireValue bs := by
  rw [wireValue, wireValueFrom_of_wireEncode h, Nat.mul_zero, BitVec.shiftLeft_zero]

/-! ### Every accepted sequence is an encoding -/

/-- What remains of a value at index `i` of its encoding, as `Inv.encRem` has it (spec/41_encoder.md R124). -/
structure FitsFrom (i : Nat) (v : Word) : Prop where
  bits : v.toNat < 2 ^ (64 - 7 * i)
  ne_zero : 0 < i → v ≠ 0#64

theorem FitsFrom.lt {i : Nat} {v : Word} (h : FitsFrom (i + 1) v) : v.toNat < 2 ^ 57 :=
  h.bits.trans_le (Nat.pow_le_pow_right (by decide) (by omega))

theorem FitsFrom.shift {i : Nat} {v : Word} (h : FitsFrom i v) (hi : i ≤ 9) (hmore : v >>> 7 ≠ 0#64) :
    i < 9 ∧ FitsFrom (i + 1) (v >>> 7) := by
  obtain ⟨hlt, hbits⟩ := rest_bound h.bits hi hmore
  exact ⟨by omega, hbits, fun _ => hmore⟩

theorem encByte_toNat (v : Word) :
    (encByte v).toNat = if v >>> 7 = 0#64 then v.toNat else 2 ^ 7 + v.toNat % 2 ^ 7 := by
  have hcontinued (c : BitVec 7) : (withContinuation (c.setWidth 8)).toNat = 2 ^ 7 + c.toNat := by
    revert c; decide
  by_cases h : v >>> 7 = 0#64
  · have hlt := (shift_eq_zero_iff v).1 h
    simp [encByte, h, chunk]
    omega
  · rw [encByte, if_pos h, if_neg h, chunk, hcontinued]
    simp

theorem continues_encByte_of_last {v : Word} (h : v >>> 7 = 0#64) : continues (encByte v) = false := by
  rw [continues_eq_false, BitVec.lt_def, encByte_toNat, if_pos h]
  exact (shift_eq_zero_iff v).1 h

/-- The last byte of an encoding passes the decoder's checks exactly when its value may remain at its index. -/
theorem fitsFrom_iff_of_last {i : Nat} {v : Word} (hi : i ≤ 9) (h : v >>> 7 = 0#64) :
    FitsFrom i v ↔ overflows (encByte v) i = false ∧ endsNonMinimal (encByte v) i = false := by
  have hlt := (shift_eq_zero_iff v).1 h
  have hbyte : (encByte v).toNat = v.toNat := by rw [encByte_toNat, if_pos h]
  have hbits : v.toNat < 2 ^ (64 - 7 * i) ↔ (i = 9 → encByte v ≤ 0x01#8) := by
    rw [BitVec.le_def, hbyte, BitVec.toNat_ofNat]
    rcases hi.lt_or_eq with hlow | rfl
    · have hpow : 2 ^ 7 ≤ 2 ^ (64 - 7 * i) := Nat.pow_le_pow_right (by decide) (by omega)
      omega
    · omega
  have hzero : encByte v = 0x00#8 ↔ v = 0#64 := by
    rw [← BitVec.toNat_inj, hbyte, ← BitVec.toNat_inj, BitVec.toNat_ofNat, BitVec.toNat_ofNat]
  rw [overflows_eq_false, endsNonMinimal_eq_false, ← hbits, Ne, hzero]
  exact ⟨fun ⟨hlow, hne⟩ => ⟨hlow, hne⟩, fun ⟨hlow, hne⟩ => ⟨hlow, hne⟩⟩

/-- A byte without continuation bit is emitted for the value it holds. -/
theorem encByte_setWidth {b : Byte} (hb : continues b = false) :
    b.setWidth 64 >>> 7 = 0#64 ∧ encByte (b.setWidth 64) = b := by
  have hvalue : (b.setWidth 64).toNat = b.toNat := BitVec.toNat_setWidth_of_le (by decide)
  have hlast : b.setWidth 64 >>> 7 = 0#64 := by
    rw [shift_eq_zero_iff, hvalue]
    exact continues_eq_false.1 hb
  exact ⟨hlast, BitVec.eq_of_toNat_eq (by rw [encByte_toNat, if_pos hlast, hvalue])⟩

/-- The value whose low chunk is that of `b`, and whose rest is `v`. -/
def joinChunk (b : Byte) (v : Word) : Word := BitVec.ofNat 64 (2 ^ 7 * v.toNat + b.toNat % 2 ^ 7)

theorem joinChunk_toNat {v : Word} (h : v.toNat < 2 ^ 57) (b : Byte) :
    (joinChunk b v).toNat = 2 ^ 7 * v.toNat + b.toNat % 2 ^ 7 :=
  Nat.mod_eq_of_lt (by omega)

theorem joinChunk_shift {v : Word} (h : v.toNat < 2 ^ 57) (b : Byte) : joinChunk b v >>> 7 = v := by
  refine BitVec.eq_of_toNat_eq ?_
  rw [shift_toNat, joinChunk_toNat h]
  omega

/-- A byte with continuation bit is emitted for its chunk joined to any rest but 0. -/
theorem encByte_joinChunk {b : Byte} {v : Word} (hb : continues b = true) (h : v.toNat < 2 ^ 57) (h0 : v ≠ 0#64) :
    encByte (joinChunk b v) = b := by
  have hge : 2 ^ 7 ≤ b.toNat := (continues_iff b).1 hb
  refine BitVec.eq_of_toNat_eq ?_
  rw [encByte_toNat, joinChunk_shift h, if_neg h0, joinChunk_toNat h]
  omega

theorem FitsFrom.joinChunk {i : Nat} {v : Word} (h : FitsFrom (i + 1) v) (hi : i < 9) (b : Byte) :
    FitsFrom i (joinChunk b v) := by
  have hpow : 2 ^ (64 - 7 * i) = 2 ^ 7 * 2 ^ (64 - 7 * (i + 1)) := by
    rw [← Nat.pow_add]
    congr 1
    omega
  have hbits := h.bits
  refine ⟨by rw [joinChunk_toNat h.lt, hpow]; omega, fun _ h0 => h.ne_zero i.succ_pos ?_⟩
  rw [← joinChunk_shift h.lt b, h0]
  rfl

/-- From index `i` on, the accepted sequences are the encodings of what may remain there. -/
theorem wireFrom_iff_exists_wireEncode {i : Nat} (hi : i ≤ 9) (bs : List Byte) :
    WireFrom i bs ↔ ∃ v, FitsFrom i v ∧ wireEncode v = bs := by
  induction bs generalizing i with
  | nil => simp [WireFrom, wireEncode_ne_nil]
  | cons b bs ih =>
    simp only [WireFrom, wireEncode_eq_cons_iff]
    constructor
    · rintro ⟨hover, ⟨hcont, hrest⟩ | ⟨hcont, hmin, rfl⟩⟩
      · have hlt := lt_nine_of_continues hi hover hcont
        obtain ⟨v, hv, hbs⟩ := (ih hlt).1 hrest
        have h0 := hv.ne_zero i.succ_pos
        refine ⟨joinChunk b v, hv.joinChunk hlt b, encByte_joinChunk hcont hv.lt h0, .inr ?_⟩
        rw [joinChunk_shift hv.lt]
        exact ⟨h0, hbs⟩
      · obtain ⟨hlast, hb⟩ := encByte_setWidth hcont
        exact ⟨_, (fitsFrom_iff_of_last hi hlast).2 (by rw [hb]; exact ⟨hover, hmin⟩), hb, .inl ⟨hlast, rfl⟩⟩
    · rintro ⟨v, hv, rfl, ⟨hlast, rfl⟩ | ⟨hmore, hbs⟩⟩
      · obtain ⟨hover, hmin⟩ := (fitsFrom_iff_of_last hi hlast).1 hv
        exact ⟨hover, .inr ⟨continues_encByte_of_last hlast, hmin, rfl⟩⟩
      · obtain ⟨hlt, hrest⟩ := hv.shift hi hmore
        exact ⟨overflows_eq_false.2 (by omega), .inl ⟨continues_encByte hmore, (ih hlt).2 ⟨_, hrest, hbs⟩⟩⟩

theorem wireOk_iff_exists_wireEncode (bs : List Byte) : wireOk bs = true ↔ ∃ v, wireEncode v = bs := by
  have hfits (v : Word) : FitsFrom 0 v := ⟨v.isLt, fun h => absurd h (Nat.lt_irrefl 0)⟩
  simp only [wireOk_iff_wireFrom, wireFrom_iff_exists_wireEncode (Nat.zero_le 9), hfits, true_and]

/-! ### What decodes with OK (spec/42_decoder.md R147) -/

/-- A decode reports OK, and every byte counted, for the accepted sequences alone. -/
theorem decodeBufFrom_eq_ok_iff (bs : List Byte) (i : Nat) (acc : Word) :
    decodeBufFrom i acc bs = ⟨.ok, acc ||| wireValueFrom i bs, i + bs.length⟩ ↔ WireFrom i bs := by
  induction bs generalizing i acc with
  | nil => simp [decodeBufFrom, WireFrom, DecodeResult.error]
  | cons b bs ih =>
    rw [decodeBufFrom, WireFrom, wireValueFrom, ← BitVec.or_assoc, List.length_cons]
    simp only [← continues_iff]
    split_ifs with hover hcont hmin
    · simp [hover, DecodeResult.error]
    · rw [Nat.add_comm bs.length, ← Nat.add_assoc, ih]
      simp [hover, hcont]
    · simp [hcont, hmin, DecodeResult.error]
    · cases bs <;> simp [hover, hcont, hmin, wireValueFrom]

theorem wireOk_iff_decodeBuf (bs : List Byte) :
    wireOk bs = true ↔ decodeBuf bs bs.length = ⟨.ok, wireValue bs, bs.length⟩ := by
  have h := decodeBufFrom_eq_ok_iff bs 0 0#64
  rw [BitVec.zero_or, Nat.zero_add] at h
  rw [wireOk_iff_wireFrom, ← h, decodeBuf, List.take_length, wireValue]

/-- Settles O35: each characterisation is `WireFrom 0`, and the value of an encoding is read from its bytes. -/
theorem validEncodingsCharacterised : Obligations.ValidEncodingsCharacterised := fun bs =>
  ⟨wireOk_iff_positions bs, wireOk_iff_exists_wireEncode bs, fun _ => wireValue_of_wireEncode, wireOk_iff_decodeBuf bs⟩

end Sys2Proof.Machine
end

