-- ==== Sys2Proof/Proofs/HostPrograms.lean ====
section
/-! The host's side of spec/30_encoding.md: the command words (R81, R84), `wait` (R90) and the pseudo-instructions
(R91). -/

namespace Sys2Proof.Machine

/-! ### Command words -/

/-- A word decodes to a command exactly if it is that command's word. -/
theorem decodeCmd_ok_iff {c : Byte} {i : Instr} : decodeCmd c = .ok i ↔ c = encode i := by
  refine ⟨fun h => (encode_of_decodeCmd h).symm, ?_⟩
  rintro rfl
  exact decodeCmd_encode i

/-- A word is illegal exactly if it is no command's word (spec/30_encoding.md R84). -/
theorem decodeCmd_error_iff (c : Byte) : (∃ r, decodeCmd c = .error r) ↔ ¬ ∃ i, encode i = c := by
  cases h : decodeCmd c with
  | error r =>
    refine iff_of_true ⟨r, rfl⟩ ?_
    rintro ⟨i, rfl⟩
    rw [decodeCmd_encode] at h
    cases h
  | ok i => exact iff_of_false (fun ⟨_, hr⟩ => nomatch hr) (not_not.2 ⟨i, encode_of_decodeCmd h⟩)

/-- Settles O12: the four words are the commands' encodings. -/
theorem commandWordsDecodeAsTabled : Obligations.CommandWordsDecodeAsTabled := by
  intro c
  refine ⟨decodeCmd_ok_iff, decodeCmd_ok_iff, decodeCmd_ok_iff, decodeCmd_ok_iff, ?_⟩
  rw [decodeCmd_error_iff, exists_encode_iff]
  simp only [not_or, Ne]

/-- Settles O13: `decodeCmd_encode` and `encode_of_decodeCmd`, a table word being read at its full width. -/
theorem commandEncodeDecodeAgree : Obligations.CommandEncodeDecodeAgree := by
  refine ⟨fun i _ => ⟨decodeCmd_encode i, ?_⟩, fun _ _ => encode_of_decodeCmd⟩
  rw [decodeTableWord, tableWord_toNat, decodeCmd_encode]

/-! ### Host actions -/

/-- On an idle block `wait` is a read of STATUS. -/
theorem step_wait_idle {s : State} {rest : List Turn} (hb : s.busy = false) (h : s.schedule = .wait :: rest) :
    step s = .next { s with schedule := rest, hostReads := (statusByte s).setWidth 64 :: s.hostReads } := by
  rw [step_cons h, takeTurn_wait, waitTurn, if_neg (by simp [hb])]
  rfl

/-- Settles O10: `wait` by the value of BUSY that the poll finds. -/
theorem waitPollsStatus : Obligations.WaitPollsStatus :=
  fun _ _ h => ⟨fun hb => step_wait_idle hb h, fun hb => step_wait_busy hb h⟩

/-- Settles O11: each expansion is its definition, with the offsets, widths and command words filled in. -/
theorem pseudoInstructionsExpandAsTabled : Obligations.PseudoInstructionsExpandAsTabled :=
  ⟨fun _ => rfl, fun _ => rfl, fun _ => rfl, rfl⟩

end Sys2Proof.Machine
end

