-- ==== Sys2Proof/Proofs/SizeCalc.lean ====
section
/-! The size calculator (spec/40_size_calc.md): `size` by its bounds 2^(7k), and SIZE, which reports it. -/

namespace Sys2Proof.Machine

/-! ### size by its bounds (spec/40_size_calc.md R103, spec/30_encoding.md R76) -/

/-- size(v) passes k exactly when v reaches the k-th bound, for k >= 1. -/
theorem lt_size_iff (v : Word) {k : Nat} (hk : 1 ≤ k) : k < size v ↔ 2 ^ (7 * k) ≤ v.toNat := by
  rw [← not_le, size_le_iff v hk, not_lt]

/-- The rows of R76. -/
theorem size_eq_iff (v : Word) {k : Nat} (hk : 1 ≤ k) :
    size v = k ↔ v.toNat < 2 ^ (7 * k) ∧ (k ≠ 1 → 2 ^ (7 * (k - 1)) ≤ v.toNat) := by
  have hpos := size_pos v
  rw [← size_le_iff v hk]
  rcases hk.eq_or_lt with rfl | hlt
  · omega
  · rw [← lt_size_iff v (by omega)]
    omega

/-- Of the indexes below `n`, those in 1..m-1. -/
theorem length_filter_range_pos_lt (m n : Nat) :
    ((List.range n).filter fun k => 1 ≤ k && k < m).length = min n m - 1 := by
  induction n with
  | zero => simp
  | succ n ih =>
    rw [List.range_succ, List.filter_append, List.length_append, ih]
    by_cases hcounted : 1 ≤ n ∧ n < m
    · rw [List.filter_eq_self.2 (by simpa using hcounted), List.length_singleton]
      omega
    · rw [List.filter_eq_nil_iff.2 (by simpa using hcounted), List.length_nil]
      omega

/-- The comparator form: each bound that v reaches is an index that size(v) passes. -/
theorem size_eq_count (v : Word) :
    size v = 1 + ((List.range 10).filter fun k => 1 ≤ k && 2 ^ (7 * k) ≤ v.toNat).length := by
  have hpassed (k : Nat) : (1 ≤ k && 2 ^ (7 * k) ≤ v.toNat) = (1 ≤ k && k < size v : Bool) := by
    by_cases hk : 1 ≤ k
    · simp only [lt_size_iff v hk]
    · simp [hk]
  have hpos := size_pos v
  have hle := size_le v
  simp only [hpassed, length_filter_range_pos_lt]
  omega

/-- Settles O18: `size_eq_count` and `size_eq_iff`. -/
theorem sizeComparatorForm : Obligations.SizeComparatorForm :=
  fun v => ⟨size_eq_count v, fun _ hk _ => size_eq_iff v hk⟩

/-! ### How size rises (spec/40_size_calc.md R106) -/

theorem size_mono {v w : Word} (h : v ≤ w) : size v ≤ size w := by
  rw [size_le_iff v (size_pos w)]
  exact (BitVec.le_def.1 h).trans_lt ((size_le_iff w (size_pos w)).1 le_rfl)

/-- At a bound, the size is the next one. -/
theorem size_of_eq_bound {v : Word} {k : Nat} (h : v.toNat = 2 ^ (7 * k)) : size v = k + 1 := by
  rw [size_eq_iff v (by omega), h]
  exact ⟨Nat.pow_lt_pow_right (by decide) (by omega), fun _ => le_rfl⟩

/-- Right below a bound, the size is still the bound's index. -/
theorem size_of_succ_eq_bound {v : Word} {k : Nat} (hk : 1 ≤ k) (h : v.toNat + 1 = 2 ^ (7 * k)) : size v = k := by
  have hlower : 2 ^ (7 * (k - 1)) < 2 ^ (7 * k) := Nat.pow_lt_pow_right (by decide) (by omega)
  rw [size_eq_iff v hk]
  exact ⟨by omega, fun _ => by omega⟩

theorem exists_size_eq {k : Nat} (hk : 1 ≤ k) (hk10 : k ≤ 10) : ∃ v : Word, size v = k := by
  have hfits : 2 ^ (7 * (k - 1)) < 2 ^ 64 := Nat.pow_lt_pow_right (by decide) (by omega)
  refine ⟨BitVec.ofNat 64 (2 ^ (7 * (k - 1))), ?_⟩
  rw [size_of_eq_bound ((BitVec.toNat_ofNat ..).trans (Nat.mod_eq_of_lt hfits)), Nat.sub_add_cancel hk]

/-- A successor that is no bound has the size of its predecessor. -/
theorem size_succ_of_ne_bound {v : Word} (h : v.toNat + 1 < 2 ^ 64)
    (hne : ∀ k, 1 ≤ k → k ≤ 9 → v.toNat + 1 ≠ 2 ^ (7 * k)) : size (v + 1#64) = size v := by
  have hpos := size_pos v
  obtain ⟨hlt, hge⟩ := (size_eq_iff v hpos).1 rfl
  have hbound : v.toNat + 1 ≠ 2 ^ (7 * size v) := by
    rcases (size_le v).eq_or_lt with hten | hlow
    · rw [hten]
      omega
    · exact hne _ hpos (by omega)
  have hsucc : (v + 1#64).toNat = v.toNat + 1 := BitVec.toNat_add_of_lt h
  rw [size_eq_iff _ hpos, hsucc]
  exact ⟨by omega, fun hone => (hge hone).trans (Nat.le_succ _)⟩

/-- Settles O19: the size below a bound, at a bound and elsewhere. -/
theorem sizeIsMonotone : Obligations.SizeIsMonotone := by
  refine ⟨fun _ _ => size_mono, fun _ => exists_size_eq, fun _ => size_succ_of_ne_bound, fun v k hk hk9 h => ?_⟩
  have hfits : v.toNat + 1 < 2 ^ 64 := h ▸ Nat.pow_lt_pow_right (by decide) (by omega)
  rw [size_of_succ_eq_bound hk h, size_of_eq_bound ((BitVec.toNat_add_of_lt hfits).trans h)]

/-! ### SIZE (spec/40_size_calc.md R100, R101) -/

/-- The 4-bit count of SIZE loses nothing of the size (spec/10_state.md R27). -/
theorem setWidth_ofNat_size (v : Word) : (BitVec.ofNat 4 (size v)).setWidth 8 = BitVec.ofNat 8 (size v) := by
  have hle := size_le v
  refine BitVec.eq_of_toNat_eq ?_
  rw [BitVec.toNat_setWidth_of_le (by decide), BitVec.toNat_ofNat, BitVec.toNat_ofNat]
  omega

theorem toNat_ofNat_size (v : Word) : (BitVec.ofNat 8 (size v)).toNat = size v :=
  Nat.mod_eq_of_lt ((size_le v).trans_lt (by decide))

/-- A step of SIZE completes with the size of it_rem, and leaves every other register alone. -/
theorem exec_size (s : State) :
    exec .size s =
      .next { s with code := .ok, busy := false, done := true, resCnt := BitVec.ofNat 8 (size s.itRem) } := by
  rw [← setWidth_ofNat_size]
  rfl

/-- The bit length is the b with 2^(b-1) <= v < 2^b; that of 0 is 0 (spec/00_scope.md R12). -/
theorem bitlen_eq {v : Word} {b : Nat} (hlt : v.toNat < 2 ^ b) (hge : b ≠ 0 → 2 ^ (b - 1) ≤ v.toNat) :
    bitlen v = b := by
  refine ((bitlen_le_iff v b).2 hlt).antisymm ?_
  rcases Nat.eq_zero_or_pos b with rfl | hpos
  · exact Nat.zero_le _
  · have hnot : ¬ bitlen v ≤ b - 1 := by
      rw [bitlen_le_iff]
      exact (hge hpos.ne').not_gt
    omega

/-- Settles O17: SIZE reports `size`, whose bit length the premises fix. -/
theorem sizeReportsMinimalByteCount : Obligations.SizeReportsMinimalByteCount := by
  intro s b hlt hge
  have hsize : size s.itRem = max 1 ((b + 6) / 7) := by rw [size, bitlen_eq hlt hge]
  rw [← hsize]
  exact ⟨_, exec_size s, rfl, toNat_ofNat_size _, (toNat_ofNat_size _).trans_le (size_le _)⟩

/-- Settles O20: SIZE starts with ARG in it_rem, and its only step completes. -/
theorem sizeRunCompletesInOneStep : Obligations.SizeRunCompletesInOneStep := by
  refine ⟨rfl, fun s _ => ?_⟩
  have hstep : step (started .size s) = exec .size (started .size s) := by
    rw [started_eq]
    exact step_of_itOp rfl rfl rfl
  rw [exec_size] at hstep
  rw [started_eq] at hstep ⊢
  exact ⟨rfl, _, (CompletesIn.zero rfl).step rfl hstep, rfl, rfl, toNat_ofNat_size _, rfl, rfl, rfl, rfl, rfl⟩

end Sys2Proof.Machine
end

