-- ==== Sys2Proof/Proofs/Encoder.lean ====
section
/-! The encoder (spec/41_encoder.md): one step of ENC, and its run, which writes `wireEncode` byte by byte. -/

namespace Sys2Proof.Machine

/-! ### One step of ENC (spec/41_encoder.md R121) -/

/-- With more of the value to come, ENC emits a byte and moves on. -/
theorem exec_enc_more {s : State} (hi : s.itIdx.toNat ≤ 9) (hmore : s.itRem >>> 7 ≠ 0#64) :
    exec .enc s = .next { s with
      obuf := s.obuf.write s.itIdx.toNat (encByte s.itRem), itRem := s.itRem >>> 7, itIdx := s.itIdx + 1#4 } :=
  (execEnc_eq (Nat.lt_succ_of_le hi)).trans (congrArg _ (if_neg hmore))

/-- With nothing more to come, ENC emits the last byte and completes. -/
theorem exec_enc_last {s : State} (hi : s.itIdx.toNat ≤ 9) (hlast : s.itRem >>> 7 = 0#64) :
    exec .enc s = .next { s with
      obuf := s.obuf.write s.itIdx.toNat (encByte s.itRem), code := .ok, busy := false, done := true,
      resCnt := BitVec.ofNat 8 (s.itIdx.toNat + 1) } := by
  rw [← count_at_idx hi]
  exact (execEnc_eq (Nat.lt_succ_of_le hi)).trans (congrArg _ (if_pos hlast))

/-- Settles O21: the two steps of ENC, with the byte that each emits. -/
theorem encStepFollowsPseudocode : Obligations.EncStepFollowsPseudocode := by
  refine ⟨rfl, fun s => ?_, fun s hi => ⟨fun hmore => ?_, fun hlast => ?_⟩⟩
  · rw [started_eq]
    exact ⟨rfl, rfl⟩
  · rw [exec_enc_more hi hmore, encByte, if_pos hmore]
    rfl
  · refine ⟨_, exec_enc_last hi hlast, ?_⟩
    rw [encByte, if_neg (not_not.2 hlast)]
    rfl

/-! ### The encoding as a whole (spec/41_encoder.md R122) -/

@[simp] theorem length_wireEncode (v : Word) : (wireEncode v).length = size v := by
  simp [wireEncode]

theorem wireOk_wireEncode (v : Word) : wireOk (wireEncode v) = true :=
  (wireOk_iff_exists_wireEncode _).2 ⟨v, rfl⟩

/-! ### Bytes written in a row -/

/-- Sets the bytes from offset `i` on. -/
def Memory.writeBytes (m : Memory) (i : Nat) : List Byte → Memory
  | [] => m
  | b :: bs => (m.write i b).writeBytes (i + 1) bs

theorem Memory.read_writeBytes_lt (m : Memory) {i j : Nat} (h : j < i) (bs : List Byte) :
    (m.writeBytes i bs).read j = m.read j := by
  induction bs generalizing m i with
  | nil => rfl
  | cons b bs ih => rw [writeBytes, ih _ (by omega), read_write_other _ _ (by omega)]

/-- From offset `i` on, the bytes written stand where they reach, and the store's own after them. -/
theorem Memory.read_writeBytes_add (m : Memory) (i j : Nat) (bs : List Byte) :
    (m.writeBytes i bs).read (i + j) = bs[j]?.or (m.read (i + j)) := by
  induction bs generalizing m i j with
  | nil => rfl
  | cons b bs ih =>
    rw [writeBytes]
    cases j with
    | zero => rw [read_writeBytes_lt _ (by omega), Nat.add_zero, read_write_same]; rfl
    | succ j =>
      rw [show i + (j + 1) = i + 1 + j by omega, ih, read_write_other _ _ (by omega)]
      rfl

/-! ### The run of ENC (spec/41_encoder.md R122, R123, R124) -/

/-- An ENC in progress, with every turn the block's, and a rest that fits the bytes left. -/
structure EncRuns (s : State) : Prop where
  schedule : s.schedule = []
  busy : s.busy = true
  itOp : s.itOp = opCode .enc
  idx : s.itIdx.toNat ≤ 9
  fits : FitsFrom s.itIdx.toNat s.itRem

/-- `s` after the bytes `bs` are emitted from it_idx on, and ENC has completed. -/
def encReported (bs : List Byte) (s : State) : State :=
  { s with
    obuf := s.obuf.writeBytes s.itIdx.toNat bs, code := .ok, busy := false, done := true,
    resCnt := BitVec.ofNat 8 (s.itIdx.toNat + bs.length) }

/-- ENC completes in as many steps as the encoding of the rest has bytes, having emitted them. -/
theorem EncRuns.completes {bs : List Byte} {s : State} (h : EncRuns s) (hbs : wireEncode s.itRem = bs) :
    ∃ t, CompletesIn bs.length s t ∧ EqualUpToIteration t (encReported bs s) := by
  induction bs generalizing s with
  | nil => exact absurd hbs (wireEncode_ne_nil _)
  | cons b bs ih =>
    have hstep := step_of_itOp h.schedule h.busy h.itOp
    obtain ⟨rfl, ⟨hlast, rfl⟩ | ⟨hmore, hrest⟩⟩ := wireEncode_eq_cons_iff.1 hbs
    · rw [exec_enc_last h.idx hlast] at hstep
      exact ⟨_, (CompletesIn.zero rfl).step h.busy hstep, rfl⟩
    · obtain ⟨hlt, hfits⟩ := h.fits.shift h.idx hmore
      have hsucc := idx_succ_toNat h.idx
      rw [exec_enc_more h.idx hmore] at hstep
      have hruns : EncRuns { s with
          obuf := s.obuf.write s.itIdx.toNat (encByte s.itRem), itRem := s.itRem >>> 7, itIdx := s.itIdx + 1#4 } :=
        { h with idx := hsucc.trans_le hlt, fits := by simpa only [hsucc] using hfits }
      obtain ⟨t, hc, heq⟩ := ih hruns hrest
      refine ⟨t, hc.step h.busy hstep, heq.trans ?_⟩
      simp only [encReported, hsucc, Memory.writeBytes, List.length_cons, Nat.add_assoc, Nat.add_comm 1]

/-- An accepted ENC completes in size(ARG) steps, having emitted the encoding of ARG. -/
theorem started_enc_completes (s : State) :
    ∃ t, CompletesIn (size s.arg) (started .enc s) t ∧
      EqualUpToIteration t (encReported (wireEncode s.arg) (started .enc s)) := by
  have hstart : EncRuns (started .enc s) := by
    rw [started_eq]
    exact ⟨rfl, rfl, rfl, Nat.zero_le _, s.arg.isLt, fun h => absurd h (Nat.lt_irrefl 0)⟩
  rw [← length_wireEncode]
  exact hstart.completes rfl

/-- What OBUF holds then: the encoding of ARG, and after it what it held before. -/
theorem read_of_enc_completed {s t : State}
    (h : EqualUpToIteration t (encReported (wireEncode s.arg) (started .enc s))) (i : Nat) :
    t.obuf.read i = (wireEncode s.arg)[i]?.or (s.obuf.read i) := by
  have hobuf : t.obuf = s.obuf.writeBytes 0 (wireEncode s.arg) := congrArg State.obuf h
  simpa [hobuf] using s.obuf.read_writeBytes_add 0 i (wireEncode s.arg)

/-- Settles O23: the run of ENC, register by register. -/
theorem encRunWritesTheEncoding : Obligations.EncRunWritesTheEncoding := by
  intro s _
  obtain ⟨t, hc, heq⟩ := started_enc_completes s
  have hread := read_of_enc_completed heq
  refine ⟨t, hc, congrArg State.code heq, congrArg State.done heq, ?count, ?value, congrArg State.xfail heq,
    fun i hi => ?encoding, fun i hi => ?rest, ?frame⟩
  case count =>
    have hcnt : t.resCnt = BitVec.ofNat 8 (0 + (wireEncode s.arg).length) := congrArg State.resCnt heq
    rw [hcnt, Nat.zero_add, length_wireEncode, toNat_ofNat_size]
  case value => rw [heq]; rfl
  case encoding => rw [hread, List.getElem?_eq_getElem (by simpa using hi)]; rfl
  case rest => rw [hread, List.getElem?_eq_none (by simpa using hi)]; rfl
  case frame =>
    rw [heq]
    exact ⟨rfl, rfl, rfl, rfl, rfl⟩

/-! ### Minimality (spec/41_encoder.md R125) -/

/-- The last byte of an encoding does not continue, and only 0 has an encoding that ends in 0x00. -/
theorem wireEncode_last {v : Word} {b : Byte} (h : (wireEncode v)[size v - 1]? = some b) :
    continues b = false ∧ (b = 0x00#8 → v = 0#64) := by
  obtain ⟨_, _, hend⟩ := (wireOk_iff_positions _).1 (wireOk_wireEncode v)
  rw [length_wireEncode] at hend
  obtain ⟨hlow, hminimal, _⟩ := hend b h
  refine ⟨continues_eq_false.2 hlow, ?_⟩
  rintro rfl
  have hsize : size v = 1 := (not_lt.1 fun hlong => hminimal hlong rfl).antisymm (size_pos v)
  obtain ⟨x, hx⟩ := List.length_eq_one_iff.1 ((length_wireEncode v).trans hsize)
  have hzero : x = 0x00#8 := by simpa [hsize, hx] using h
  rw [wireValue_of_wireEncode hx, hzero]
  rfl

/-- Bits 6:0 are all of a byte that does not continue. -/
theorem and_mask_of_not_continues {b : Byte} (h : continues b = false) : b &&& 0x7F#8 = b := by
  revert b; decide

/-- Settles O24: the bytes in OBUF are those of an encoding, which R75 describes by their positions. -/
theorem encodingIsMinimal : Obligations.EncodingIsMinimal := by
  intro s _
  obtain ⟨t, hc, heq⟩ := started_enc_completes s
  obtain ⟨_, hcontinues, _⟩ := (wireOk_iff_positions _).1 (wireOk_wireEncode s.arg)
  rw [length_wireEncode] at hcontinues
  have hwritten {i : Nat} (hi : i < size s.arg) :
      ∃ b, (wireEncode s.arg)[i]? = some b ∧ t.obuf.read i = some b := by
    have hb := List.getElem?_eq_getElem (hi.trans_eq (length_wireEncode s.arg).symm)
    exact ⟨_, hb, by rw [read_of_enc_completed heq, hb]; rfl⟩
  refine ⟨t, hc, fun i hi => ?_, ?_⟩
  · obtain ⟨b, hb, hr⟩ := hwritten (Nat.lt_of_succ_lt hi)
    exact ⟨b, hr, (continues_iff b).2 (hcontinues i b hb hi)⟩
  · obtain ⟨b, hb, hr⟩ := hwritten (Nat.sub_one_lt_of_lt (size_pos s.arg))
    obtain ⟨hlast, hzero⟩ := wireEncode_last hb
    exact ⟨b, hr, hlast, fun hmask => hzero (by rwa [and_mask_of_not_continues hlast] at hmask)⟩

end Sys2Proof.Machine
end

