-- ==== Sys2Proof/Proofs/RoundTrip.lean ====
section
/-! DECB over an accepted encoding (spec/41_encoder.md R126): `WireFrom` is followed byte by byte in IBUF, to the value
it stands for. -/

namespace Sys2Proof.Machine

/-- A byte that ends an accepted encoding completes with the value (spec/42_decoder.md R150). -/
theorem examine_last {b : Byte} {s : State} (hover : overflows b s.itIdx.toNat = false)
    (hcont : continues b = false) (hmin : endsNonMinimal b s.itIdx.toNat = false) :
    examine b s = complete .ok (some (accumulate b s)) (s.itIdx + 1#4) s := by
  simp [examine, hover, hcont, hmin]

/-- A DECB in progress, with every turn the block's and the bytes `bs` of an accepted encoding next in IBUF. -/
structure DecbReads (bs : List Byte) (s : State) : Prop where
  schedule : s.schedule = []
  busy : s.busy = true
  itOp : s.itOp = opCode .decb
  idx : s.itIdx.toNat ≤ 9
  wire : WireFrom s.itIdx.toNat bs
  len : s.itIdx.toNat + bs.length ≤ s.itLen.toNat
  cap : s.itIdx.toNat + bs.length ≤ s.ibufCap
  bytes : ∀ j < bs.length, s.ibuf.read (s.itIdx.toNat + j) = bs[j]?

/-- The step examines the first of the bytes. -/
theorem DecbReads.step {b : Byte} {bs : List Byte} {s : State} (h : DecbReads (b :: bs) s) :
    step s = .next (examine b s) := by
  have hlen := h.len
  have hcap := h.cap
  rw [List.length_cons] at hlen hcap
  rw [step_of_itOp h.schedule h.busy h.itOp]
  exact execDecb_byte (by omega) (by omega) (h.bytes 0 (by simp))

/-- Past a byte that continues, the others are next. -/
theorem DecbReads.advance {b : Byte} {bs : List Byte} {s : State} (h : DecbReads (b :: bs) s)
    (hlt : s.itIdx.toNat < 9) (hrest : WireFrom (s.itIdx.toNat + 1) bs) (acc : Word) :
    DecbReads bs { s with itAcc := acc, itIdx := s.itIdx + 1#4 } := by
  have hsucc := idx_succ_toNat hlt.le
  have hcons : s.itIdx.toNat + 1 + bs.length = s.itIdx.toNat + (b :: bs).length := by
    rw [List.length_cons]; omega
  refine { h with idx := hsucc.trans_le hlt, wire := ?_, len := ?_, cap := ?_, bytes := fun j hj => ?_ } <;>
    simp only [hsucc]
  · exact hrest
  · exact hcons.trans_le h.len
  · exact hcons.trans_le h.cap
  · rw [Nat.add_assoc, Nat.add_comm 1]
    exact h.bytes (j + 1) (Nat.succ_lt_succ hj)

/-- DECB completes with OK after as many steps as there are bytes, with their value and their number. -/
theorem DecbReads.completes {bs : List Byte} {s : State} (h : DecbReads bs s) :
    ∃ t, CompletesIn bs.length s t ∧ t.code = .ok ∧ t.resVal = s.itAcc ||| wireValueFrom s.itIdx.toNat bs ∧
      t.resCnt = BitVec.ofNat 8 (s.itIdx.toNat + bs.length) := by
  induction bs generalizing s with
  | nil => exact h.wire.elim
  | cons b bs ih =>
    have hstep := h.step
    obtain ⟨hover, ⟨hcont, hrest⟩ | ⟨hcont, hmin, rfl⟩⟩ := h.wire
    · have hlt := lt_nine_of_continues h.idx hover hcont
      rw [examine_continuation hlt.ne ((continues_iff b).1 hcont)] at hstep
      obtain ⟨t, hc, hcode, hval, hcnt⟩ := ih (h.advance hlt hrest _)
      rw [idx_succ_toNat h.idx] at hval hcnt
      refine ⟨t, hc.step h.busy hstep, hcode, ?_, ?_⟩
      · rw [hval, accumulate, wireValueFrom, BitVec.or_assoc]
      · rw [hcnt, List.length_cons, Nat.add_assoc, Nat.add_comm 1]
    · rw [examine_last hover hcont hmin] at hstep
      refine ⟨_, (CompletesIn.zero rfl).step h.busy hstep, rfl, ?_, count_at_idx h.idx⟩
      simp [accumulate, wireValueFrom]

/-- Settles O31: the encoding is accepted (`wireOk_wireEncode`), and an accepted DECB has all of it ahead. -/
theorem decbOfEncodingRoundTrips : Obligations.DecbOfEncodingRoundTrips := by
  intro s v _ hlen hcap hbytes
  have hwire : WireFrom 0 (wireEncode v) := (wireOk_iff_wireFrom _).1 (wireOk_wireEncode v)
  have hstart : DecbReads (wireEncode v) (started .decb s) := by
    rw [started_eq]
    exact ⟨rfl, rfl, rfl, Nat.zero_le _, hwire, by simpa using hlen, by simpa using hcap, by simpa using hbytes⟩
  obtain ⟨t, hc, hcode, hval, hcnt⟩ := hstart.completes
  rw [length_wireEncode] at hc hcnt
  rw [started_eq] at hval hcnt
  refine ⟨t, hc, hcode, ?_, ?_⟩
  · rw [hval, BitVec.zero_or]
    exact (wireValue_of_wireEncode rfl).symm
  · rw [hcnt]
    simpa using toNat_ofNat_size v

end Sys2Proof.Machine
end

