-- ==== Sys2Proof/Proofs/DecoderSteps.lean ====
section
/-! One step of DECB and of DECS (spec/42_decoder.md R142, R152): both examine a byte alike (R151), and report the
status that the byte, the reply or the end of the buffer gives. -/

namespace Sys2Proof.Machine

/-! ### One byte examined (spec/42_decoder.md R150) -/

theorem overflows_iff {b : Byte} {idx : BitVec 4} : overflows b idx.toNat = true ↔ idx = 9#4 ∧ 0x01#8 < b := by
  simp [overflows, BitVec.toNat_eq]

theorem endsNonMinimal_iff {b : Byte} {idx : BitVec 4} :
    endsNonMinimal b idx.toNat = true ↔ b = 0x00#8 ∧ idx ≠ 0#4 := by
  simp [endsNonMinimal, BitVec.toNat_eq, Nat.pos_iff_ne_zero]

theorem examine_overflow {b : Byte} {s : State} (hover : overflows b s.itIdx.toNat = true) :
    examine b s = raise .overflow s := by
  simp [examine, hover]

/-- The byte that ends a non-minimal encoding is 0x00, which neither overflows nor continues. -/
theorem reaches_minimality_check {b : Byte} {i : Nat} (hmin : endsNonMinimal b i = true) :
    overflows b i = false ∧ continues b = false := by
  have hzero : b = 0x00#8 := eq_of_beq (Bool.and_elim_left hmin)
  subst hzero
  exact ⟨by simp [overflows], rfl⟩

theorem examine_notMinimal {b : Byte} {s : State} (hmin : endsNonMinimal b s.itIdx.toNat = true) :
    examine b s = raise .notMinimal s := by
  obtain ⟨hover, hcont⟩ := reaches_minimality_check hmin
  simp [examine, hover, hcont, hmin]

/-- A decoder's step over a byte, case by case (R142, R152): for DECB `s` is the state before the step, for DECS the
state with the reply taken. -/
theorem examine_pseudocode {b : Byte} {s : State} {o : Host.Outcome State Fault Refusal} (hi : s.itIdx.toNat ≤ 9)
    (ho : o = .next (examine b s)) :
    (s.itIdx = 9#4 ∧ 0x01#8 < b →
      ∃ t, o = .next t ∧ EqualUpToIteration t { s with
        code := .overflow, resVal := 0#64, resCnt := 0x00#8, busy := false, done := true }) ∧
    (¬ (s.itIdx = 9#4 ∧ 0x01#8 < b) → 0x80#8 ≤ b →
      o = .next { s with itAcc := s.itAcc ||| contribution b s.itIdx.toNat, itIdx := s.itIdx + 1#4 }) ∧
    (b = 0x00#8 → s.itIdx ≠ 0#4 →
      ∃ t, o = .next t ∧ EqualUpToIteration t { s with
        code := .notMinimal, resVal := 0#64, resCnt := 0x00#8, busy := false, done := true }) ∧
    (¬ (s.itIdx = 9#4 ∧ 0x01#8 < b) → b < 0x80#8 → ¬ (b = 0x00#8 ∧ s.itIdx ≠ 0#4) →
      ∃ t, o = .next t ∧ EqualUpToIteration t { s with
        code := .ok, resVal := s.itAcc ||| contribution b s.itIdx.toNat,
        resCnt := BitVec.ofNat 8 (s.itIdx.toNat + 1), busy := false, done := true }) := by
  subst ho
  rw [← overflows_iff, ← endsNonMinimal_iff, Bool.not_eq_true, Bool.not_eq_true]
  refine ⟨fun hover => ?_, fun hover hb => ?_, fun hb hidx => ?_, fun hover hb hmin => ?_⟩
  · exact ⟨_, congrArg _ (examine_overflow hover), rfl⟩
  · have hlt := lt_nine_of_continues hi hover ((continues_iff b).2 hb)
    rw [examine_continuation hlt.ne hb, accumulate]
  · exact ⟨_, congrArg _ (examine_notMinimal (endsNonMinimal_iff.2 ⟨hb, hidx⟩)), rfl⟩
  · refine ⟨_, congrArg _ (examine_last hover (continues_eq_false.2 hb) hmin), ?_⟩
    rw [← count_at_idx hi]
    rfl

/-- Settles O25: at the end of the buffer there is no byte; any other is examined (`examine_pseudocode`). -/
theorem decbStepFollowsPseudocode : Obligations.DecbStepFollowsPseudocode := by
  refine ⟨rfl, fun s => ?_, fun s hi => ⟨fun hend => ⟨_, execDecb_end hend, rfl⟩, fun b hlen hcap hr => ?_⟩⟩
  · rw [started_eq]
    exact ⟨rfl, rfl, rfl⟩
  · exact examine_pseudocode hi (execDecb_byte hlen hcap hr)

/-- The code that XFAIL gets is the low FAIL_W bits of the reply's (spec/10_state.md R28, log entry 6). -/
theorem failCode_eq_ofNat (w : Nat) (c : Word) : failCode w c = BitVec.ofNat 64 (c.toNat % 2 ^ w) := by
  rw [← failCode_toNat, BitVec.ofNat_toNat, BitVec.setWidth_eq]

/-- Settles O36: an END by its index, a FAIL with its code, and a byte as `examine_pseudocode` says. -/
theorem decsStepFollowsPseudocode : Obligations.DecsStepFollowsPseudocode := by
  refine ⟨rfl, fun s => ?_, fun s rest hi =>
    ⟨fun hs h0 => ?_, fun hs hne => ?_, fun c hs => ?_, fun b hs => ?_⟩⟩
  · rw [started_eq]
    exact ⟨rfl, rfl⟩
  · refine ⟨_, execDecs_reply hs, ?_⟩
    rw [← show endStatus s.itIdx = .cleanEnd from if_pos h0]
    rfl
  · refine ⟨_, execDecs_reply hs, ?_⟩
    rw [← show endStatus s.itIdx = .unexpectedEnd from if_neg hne]
    rfl
  · refine ⟨_, execDecs_reply hs, ?_⟩
    rw [← failCode_eq_ofNat]
    rfl
  · exact examine_pseudocode (s := { s with source := rest }) hi (execDecs_reply hs)

/-! ### The status a step reports -/

/-- The status that a byte at index `i` ends a decode with; none where it is accumulated (R150). -/
def byteVerdict (b : Byte) (i : Nat) : Option StatusCode :=
  if overflows b i then some .overflow
  else if continues b then none
  else if endsNonMinimal b i then some .notMinimal
  else some .ok

theorem examine_reports_iff {b : Byte} {s : State} (hb : s.busy = true) (c : StatusCode) :
    (examine b s).busy = false ∧ (examine b s).code = c ↔ byteVerdict b s.itIdx.toNat = some c := by
  rcases examine_cases b s with ⟨hover, he⟩ | ⟨hover, hcont, he⟩ | ⟨hover, hcont, hmin, he⟩ |
    ⟨hover, hcont, hmin, he⟩ <;> rw [he]
  · simp [byteVerdict, hover]
  · simp [byteVerdict, hover, hcont, hb]
  · simp [byteVerdict, hover, hcont, hmin]
  · simp [byteVerdict, hover, hcont, hmin]

theorem byteVerdict_eq_overflow_iff {b : Byte} {i : Nat} :
    byteVerdict b i = some .overflow ↔ overflows b i = true := by
  unfold byteVerdict
  split_ifs with hover <;> simp [hover]

theorem byteVerdict_eq_notMinimal_iff {b : Byte} {i : Nat} :
    byteVerdict b i = some .notMinimal ↔ endsNonMinimal b i = true := by
  constructor
  · intro hv
    unfold byteVerdict at hv
    split_ifs at hv with _ _ hmin
    · cases hv
    · exact hmin
    · cases hv
  · intro hmin
    obtain ⟨hover, hcont⟩ := reaches_minimality_check hmin
    simp [byteVerdict, hover, hcont, hmin]

/-- A byte has three verdicts; the others are for the ends of the input (spec/42_decoder.md R156). -/
theorem byteVerdict_cases {b : Byte} {i : Nat} {c : StatusCode} (h : byteVerdict b i = some c) :
    c = .ok ∨ c = .overflow ∨ c = .notMinimal := by
  unfold byteVerdict at h
  split_ifs at h <;> cases h <;> simp

/-- The status that a reply at it_idx ends a DECS with (R152, R153). -/
def replyVerdict (idx : BitVec 4) : Reply → Option StatusCode
  | .byte b => byteVerdict b idx.toNat
  | .endOfInput => some (endStatus idx)
  | .fail _ => some .transportFail

theorem takeReply_reports_iff {r : Reply} {s : State} (hb : s.busy = true) (c : StatusCode) :
    (takeReply r s).busy = false ∧ (takeReply r s).code = c ↔ replyVerdict s.itIdx r = some c := by
  cases r with
  | byte b => exact examine_reports_iff hb c
  | endOfInput | fail => simp [takeReply, replyVerdict]

theorem exec_decb_reports_iff {s : State} (hb : s.busy = true) (c : StatusCode) :
    (∃ t, exec .decb s = .next t ∧ t.busy = false ∧ t.code = c) ↔
      (s.itLen.toNat ≤ s.itIdx.toNat ∧ c = .underflow) ∨
      (s.itIdx.toNat < s.itLen.toNat ∧ s.itIdx.toNat < s.ibufCap ∧
        ∃ b, s.ibuf.read s.itIdx.toNat = some b ∧ byteVerdict b s.itIdx.toNat = some c) := by
  constructor
  · rintro ⟨t, he, ht, hc⟩
    rcases execDecb_cases he with ⟨hend, rfl⟩ | ⟨_, _, rfl⟩ | ⟨hlen, hcap, b, hr, rfl⟩
    · exact .inl ⟨hend, hc.symm⟩
    · rw [hb] at ht; cases ht
    · exact .inr ⟨hlen, hcap, b, hr, (examine_reports_iff hb c).1 ⟨ht, hc⟩⟩
  · rintro (⟨hend, rfl⟩ | ⟨hlen, hcap, b, hr, hc⟩)
    · exact ⟨_, execDecb_end hend, rfl, rfl⟩
    · exact ⟨_, execDecb_byte hlen hcap hr, (examine_reports_iff hb c).2 hc⟩

theorem exec_decs_reports_iff {s : State} (hb : s.busy = true) (c : StatusCode) :
    (∃ t, exec .decs s = .next t ∧ t.busy = false ∧ t.code = c) ↔
      ∃ r rest, s.source = r :: rest ∧ replyVerdict s.itIdx r = some c := by
  constructor
  · rintro ⟨t, he, ht, hc⟩
    rcases execDecs_cases he with ⟨_, rfl⟩ | ⟨r, rest, hs, rfl⟩
    · rw [hb] at ht; cases ht
    · exact ⟨r, rest, hs, (takeReply_reports_iff (s := { s with source := rest }) hb c).1 ⟨ht, hc⟩⟩
  · rintro ⟨r, rest, hs, hc⟩
    exact ⟨_, execDecs_reply hs, (takeReply_reports_iff (s := { s with source := rest }) hb c).2 hc⟩

/-- Settles O27: no byte's verdict is UNDERFLOW. -/
theorem underflowExactlyAtBufferEnd : Obligations.UnderflowExactlyAtBufferEnd := by
  intro s hb
  rw [exec_decb_reports_iff hb]
  refine ⟨?_, fun hend => .inl ⟨hend, rfl⟩⟩
  rintro (⟨hend, _⟩ | ⟨_, _, b, _, hv⟩)
  · exact hend
  · exact absurd (byteVerdict_cases hv) (by decide)

/-- An END is no verdict of a byte, nor UNDERFLOW (spec/42_decoder.md R153, R156). -/
theorem endStatus_cases (idx : BitVec 4) : endStatus idx = .cleanEnd ∨ endStatus idx = .unexpectedEnd := by
  unfold endStatus
  split
  · exact .inl rfl
  · exact .inr rfl

/-- But for the statuses of END and FAIL, a DECS reports a byte's verdict. -/
theorem exec_decs_reports_byte_iff {s : State} (hb : s.busy = true) {c : StatusCode}
    (hc : c ≠ .cleanEnd ∧ c ≠ .unexpectedEnd ∧ c ≠ .transportFail) :
    (∃ t, exec .decs s = .next t ∧ t.busy = false ∧ t.code = c) ↔
      ∃ b rest, s.source = .byte b :: rest ∧ byteVerdict b s.itIdx.toNat = some c := by
  obtain ⟨hclean, hunexpected, hfail⟩ := hc
  rw [exec_decs_reports_iff hb]
  refine ⟨?_, fun ⟨b, rest, hs, hv⟩ => ⟨.byte b, rest, hs, hv⟩⟩
  rintro ⟨r, rest, hs, hv⟩
  cases r with
  | byte b => exact ⟨b, rest, hs, hv⟩
  | endOfInput =>
    cases hv
    rcases endStatus_cases s.itIdx with h | h
    · exact absurd h hclean
    · exact absurd h hunexpected
  | fail => cases hv; exact absurd rfl hfail

/-- Settles O41: the verdicts of bytes and of replies, status by status. -/
theorem decoderStatusesKeptApart : Obligations.DecoderStatusesKeptApart := by
  intro s t hb ht
  refine ⟨fun he hc => ?_, fun he => ?_⟩
  · obtain ⟨b, _, _, hv⟩ := (exec_decs_reports_byte_iff hb (by decide)).1 ⟨t, he, ht, hc⟩
    exact absurd (byteVerdict_cases hv) (by decide)
  · rcases (exec_decb_reports_iff hb _).1 ⟨t, he, ht, rfl⟩ with ⟨_, hc⟩ | ⟨_, _, b, _, hv⟩
    · simp [hc]
    · rcases byteVerdict_cases hv with hc | hc | hc <;> simp [hc]

/-! ### OVERFLOW (spec/42_decoder.md R143) -/

/-- At index 9 every byte ends the decode: one that continues overflows. -/
theorem examine_completes_at_nine {b : Byte} {s : State} (h9 : s.itIdx = 9#4) : (examine b s).busy = false := by
  rcases examine_cases b s with ⟨_, he⟩ | ⟨hover, hcont, _⟩ | ⟨_, _, _, he⟩ | ⟨_, _, _, he⟩
  · rw [he]; rfl
  · have hten := overflows_of_continues hcont
    rw [h9] at hover
    exact absurd (hten.symm.trans hover) (by decide)
  · rw [he]; rfl
  · rw [he]; rfl

theorem takeReply_completes_at_nine {r : Reply} {s : State} (h9 : s.itIdx = 9#4) : (takeReply r s).busy = false := by
  cases r with
  | byte b => exact examine_completes_at_nine h9
  | endOfInput | fail => rfl

/-- Settles O28: a byte's verdict is OVERFLOW exactly where it `overflows`, and index 9 is the last one. -/
theorem overflowExactlyOnTenthByte : Obligations.OverflowExactlyOnTenthByte := by
  intro s hb
  refine ⟨?decb, ?decs, fun h9 t => ?last⟩
  case decb =>
    rw [exec_decb_reports_iff hb]
    simp only [byteVerdict_eq_overflow_iff, overflows_iff]
    by_cases h9 : s.itIdx = 9#4 <;> simp [h9]
  case decs =>
    rw [exec_decs_reports_byte_iff hb (by decide)]
    simp only [byteVerdict_eq_overflow_iff, overflows_iff]
    by_cases h9 : s.itIdx = 9#4 <;> simp [h9]
  case last =>
    rintro (he | he)
    · rcases execDecb_cases he with ⟨_, rfl⟩ | ⟨_, _, rfl⟩ | ⟨_, _, b, _, rfl⟩
      · exact .inl rfl
      · exact .inr rfl
      · exact .inl (examine_completes_at_nine h9)
    · rcases execDecs_cases he with ⟨_, rfl⟩ | ⟨r, rest, _, rfl⟩
      · exact .inr rfl
      · exact .inl (takeReply_completes_at_nine h9)

/-! ### NOT_MINIMAL (spec/42_decoder.md R145) -/

/-- A byte that may end an encoding at index `i` contributes a bit from 7i on unless it is 0x00. -/
theorem contribution_lt_iff {b : Byte} {i : Nat} (hi : i ≤ 9) (hb : b < 0x80#8) (hten : i = 9 → b ≤ 0x01#8) :
    (contribution b i).toNat < 2 ^ (7 * i) ↔ b = 0x00#8 := by
  have hlow : b.toNat < 2 ^ 7 := hb
  have hmask : b &&& 0x7F#8 = b := and_mask_of_not_continues (continues_eq_false.2 hb)
  have hfits : b.toNat * 2 ^ (7 * i) < 2 ^ 64 := by
    rcases hi.lt_or_eq with hlt | rfl
    · have hpow : 2 ^ (7 * i) ≤ 2 ^ 56 := Nat.pow_le_pow_right (by decide) (by omega)
      exact (Nat.mul_le_mul hlow.le hpow).trans_lt (by decide)
    · have hone : b.toNat ≤ 1 := hten rfl
      omega
  have hvalue : (contribution b i).toNat = b.toNat * 2 ^ (7 * i) := by
    rw [contribution, hmask, BitVec.toNat_shiftLeft, BitVec.toNat_setWidth_of_le (by decide), Nat.shiftLeft_eq,
      Nat.mod_eq_of_lt hfits]
  rw [hvalue, mul_lt_iff_lt_one_left (Nat.two_pow_pos _), Nat.lt_one_iff, ← BitVec.toNat_inj]
  rfl

/-- The value has `i` bytes or fewer exactly if the byte at index `i`, not the first, adds nothing to it (R145). -/
theorem size_or_contribution_lt_iff {acc : Word} {b : Byte} {i : Nat} (hi : i ≤ 9) (hacc : acc.toNat < 2 ^ (7 * i))
    (hb : b < 0x80#8) (hten : i = 9 → b ≤ 0x01#8) :
    size (acc ||| contribution b i) < i + 1 ↔ b = 0x00#8 ∧ 0 < i := by
  rcases Nat.eq_zero_or_pos i with rfl | hpos
  · have := size_pos (acc ||| contribution b 0)
    omega
  · have hor : (acc ||| contribution b i).toNat < 2 ^ (7 * i) ↔ (contribution b i).toNat < 2 ^ (7 * i) := by
      rw [BitVec.toNat_or]
      exact ⟨Nat.right_le_or.trans_lt, Nat.or_lt_two_pow hacc⟩
    rw [Nat.lt_succ_iff, size_le_iff _ hpos, hor, contribution_lt_iff hi hb hten]
    simp [hpos]

/-- Settles O29: a byte's verdict is NOT_MINIMAL exactly where it `endsNonMinimal`, and the sizes by
`size_or_contribution_lt_iff`. -/
theorem notMinimalIffSizeBelowCount : Obligations.NotMinimalIffSizeBelowCount := by
  refine ⟨fun s hb => ⟨?decb, ?decs⟩, fun acc b i hi hacc hb hten => size_or_contribution_lt_iff hi hacc hb hten⟩
  case decb =>
    rw [exec_decb_reports_iff hb]
    simp only [byteVerdict_eq_notMinimal_iff, endsNonMinimal_iff]
    by_cases h0 : s.itIdx = 0#4 <;> simp [h0]
  case decs =>
    rw [exec_decs_reports_byte_iff hb (by decide)]
    simp only [byteVerdict_eq_notMinimal_iff, endsNonMinimal_iff]
    by_cases h0 : s.itIdx = 0#4 <;> simp [h0]

/-! ### Errors (spec/42_decoder.md R149) -/

theorem examine_error {b : Byte} {s : State} (hb : s.busy = true) (ht : (examine b s).busy = false)
    (hne : (examine b s).code ≠ .ok) : (examine b s).resVal = 0#64 ∧ (examine b s).resCnt = 0x00#8 := by
  rcases examine_cases b s with ⟨_, he⟩ | ⟨_, _, he⟩ | ⟨_, _, _, he⟩ | ⟨_, _, _, he⟩ <;> rw [he] at ht hne ⊢
  · exact ⟨rfl, rfl⟩
  · exact absurd (hb.symm.trans ht) (by decide)
  · exact ⟨rfl, rfl⟩
  · exact absurd rfl hne

/-- Settles O40: but for a byte that ends its encoding with OK, a completing step is a `raise`. -/
theorem decoderErrorsReportZero : Obligations.DecoderErrorsReportZero := by
  rintro s t hb (he | he) ht hne
  · rcases execDecb_cases he with ⟨_, rfl⟩ | ⟨_, _, rfl⟩ | ⟨_, _, b, _, rfl⟩
    · exact ⟨rfl, rfl⟩
    · exact absurd (hb.symm.trans ht) (by decide)
    · exact examine_error hb ht hne
  · rcases execDecs_cases he with ⟨_, rfl⟩ | ⟨r, rest, _, rfl⟩
    · exact absurd (hb.symm.trans ht) (by decide)
    · cases r with
      | byte b => exact examine_error (s := { s with source := rest }) hb ht hne
      | endOfInput | fail => exact ⟨rfl, rfl⟩

/-! ### The only byte of IBUF that a step sees (spec/42_decoder.md R146, R148) -/

theorem examine_with_ibuf (b : Byte) (s : State) (m : Memory) :
    examine b { s with ibuf := m } = { examine b s with ibuf := m } := by
  unfold examine
  simp only
  split_ifs <;> rfl

/-- Settles O33: DECB ends, holds or examines a byte by the length, IBUF_CAP and the byte at it_idx. -/
theorem decbStepSeesOnlyOneByte : Obligations.DecbStepSeesOnlyOneByte := by
  intro s t m hm he
  rcases execDecb_cases he with ⟨hend, rfl⟩ | ⟨hlen, hcap, rfl⟩ | ⟨hlen, hcap, b, hr, rfl⟩
  · exact execDecb_end (s := { s with ibuf := m }) hend
  · exact execDecb_noStep (s := { t with ibuf := m }) hlen hcap
  · rw [← examine_with_ibuf]
    exact execDecb_byte (s := { s with ibuf := m }) hlen hcap (hm.trans hr)

end Sys2Proof.Machine
end

