-- ==== Sys2Proof/Proofs/DecoderRuns.lean ====
section
/-! The decodes of spec/42_decoder.md R147 and R154 as pure functions, the run of DECB, which follows `decodeBuf`, and a
DECS that its source leaves without a reply. -/

namespace Sys2Proof.Machine

/-! ### decodeBuf (spec/42_decoder.md R147, R148) -/

/-- A byte decoded by `decodeBufFrom`, in the cases of `examine_cases`. -/
theorem decodeBufFrom_cons (i : Nat) (acc : Word) (b : Byte) (bs : List Byte) :
    decodeBufFrom i acc (b :: bs) =
      if overflows b i then .error .overflow
      else if continues b then decodeBufFrom (i + 1) (acc ||| contribution b i) bs
      else if endsNonMinimal b i then .error .notMinimal
      else ⟨.ok, acc ||| contribution b i, i + 1⟩ := by
  simp only [decodeBufFrom, continues_iff]

theorem decodeBuf_length (bytes : List Byte) : decodeBuf bytes bytes.length = decodeBufFrom 0 0#64 bytes := by
  rw [decodeBuf, List.take_length]

theorem decodeBufFrom_append {i : Nat} {acc : Word} {bytes : List Byte} (more : List Byte)
    (h : (decodeBufFrom i acc bytes).status ≠ .underflow) :
    decodeBufFrom i acc (bytes ++ more) = decodeBufFrom i acc bytes := by
  induction bytes generalizing i acc with
  | nil => exact absurd rfl h
  | cons b bs ih =>
    rw [decodeBufFrom_cons] at h
    rw [List.cons_append, decodeBufFrom_cons, decodeBufFrom_cons]
    split_ifs at h ⊢
    · rfl
    · exact ih h
    · rfl
    · rfl

/-- Settles O32: by `decodeBufFrom_append`. -/
theorem trailingBytesDoNotMatter : Obligations.TrailingBytesDoNotMatter := by
  intro bytes more h
  rw [decodeBuf_length] at h
  rw [decodeBuf_length, decodeBuf_length, decodeBufFrom_append more h]

/-- A decode counts at most ten bytes (spec/42_decoder.md R146). -/
theorem decodeBufFrom_count_le {i : Nat} (hi : i ≤ 9) (acc : Word) (bytes : List Byte) :
    (decodeBufFrom i acc bytes).count ≤ 10 := by
  induction bytes generalizing i acc with
  | nil => exact Nat.zero_le _
  | cons b bs ih =>
    rw [decodeBufFrom_cons]
    split_ifs with hover hcont hmin
    · exact Nat.zero_le _
    · exact ih (lt_nine_of_continues hi (Bool.not_eq_true _ ▸ hover) hcont) _
    · exact Nat.zero_le _
    · exact Nat.succ_le_succ hi

/-! ### decodeStream of a buffer (spec/42_decoder.md R154) -/

/-- A buffer's result where the bytes are followed by END: UNDERFLOW after `n` bytes becomes END's status. -/
def underflowAsEnd (n : Nat) (r : DecodeResult) : DecodeResult :=
  if r.status = .underflow then .error (if n = 0 then .cleanEnd else .unexpectedEnd) else r

theorem decodeStreamFrom_of_buffer (failW i : Nat) (acc : Word) (bs : List Byte) :
    ∃ n, decodeStreamFrom failW i acc (bs.map .byte ++ [.endOfInput]) =
      some ⟨underflowAsEnd (i + bs.length) (decodeBufFrom i acc bs), 0#64, n⟩ := by
  induction bs generalizing i acc with
  | nil => exact ⟨_, rfl⟩
  | cons b bs ih =>
    have hlen : i + (b :: bs).length = i + 1 + bs.length := by rw [List.length_cons]; omega
    rw [List.map_cons, List.cons_append, decodeStreamFrom_byte, decodeBufFrom_cons, hlen]
    split_ifs
    · exact ⟨_, rfl⟩
    · exact ih ..
    · exact ⟨_, rfl⟩
    · exact ⟨_, rfl⟩

/-- Settles O39: by `decodeStreamFrom_of_buffer`, from index 0. -/
theorem streamDecodeAgreesWithBufferDecode : Obligations.StreamDecodeAgreesWithBufferDecode := by
  intro failW bs
  obtain ⟨n, hr⟩ := decodeStreamFrom_of_buffer failW 0 0#64 bs
  rw [decodeBuf_length]
  exact ⟨_, hr, rfl, fun hne => if_neg hne, fun hunder => (if_pos hunder).trans (by simp)⟩

/-! ### The index at which a decode ends (spec/42_decoder.md R146) -/

/-- How many more bytes continue, from index `i` on and before index 9: `decodeIndex` from there. -/
def decodeIndexFrom (i : Nat) (bytes : List Byte) : Nat :=
  ((bytes.take (9 - i)).takeWhile fun b => 0x80#8 ≤ b).length

theorem decodeIndexFrom_zero (bytes : List Byte) : decodeIndexFrom 0 bytes = decodeIndex bytes := rfl

theorem decodeIndexFrom_le (i : Nat) (bytes : List Byte) : decodeIndexFrom i bytes ≤ 9 - i :=
  (List.takeWhile_sublist _).length_le.trans (List.length_take_le ..)

theorem decodeIndexFrom_continues {i : Nat} {b : Byte} (hi : i < 9) (hcont : continues b = true) (bs : List Byte) :
    decodeIndexFrom i (b :: bs) = decodeIndexFrom (i + 1) bs + 1 := by
  have hleft : 9 - i = 9 - (i + 1) + 1 := by omega
  have hge : 0x80#8 ≤ b := (continues_iff b).1 hcont
  simp [decodeIndexFrom, hleft, hge]

/-- A decode ends at a byte that does not continue, and at index 9 in any case. -/
theorem decodeIndexFrom_ends {i : Nat} {b : Byte} (hend : continues b = true → overflows b i = true)
    (bs : List Byte) : decodeIndexFrom i (b :: bs) = 0 := by
  by_cases hcont : continues b = true
  · have h9 : i = 9 := eq_of_beq (Bool.and_elim_left (hend hcont))
    simp [decodeIndexFrom, h9]
  · have hlow : ¬ 0x80#8 ≤ b := mt (continues_iff b).2 hcont
    cases hleft : 9 - i <;> simp [decodeIndexFrom, hleft, hlow]

/-! ### DECB follows decodeBuf (spec/42_decoder.md R147, spec/70_reset_and_hazards.md R230) -/

/-- `s` with the decode's result `r` reported. -/
def decodeReported (r : DecodeResult) (s : State) : State :=
  { s with
    code := r.status, busy := false, done := true, resVal := r.value, resCnt := BitVec.ofNat 8 r.count }

/-- A byte that does not let the decode go on ends it as in `decodeBuf`. -/
theorem examine_ends {b : Byte} {s : State} (hi : s.itIdx.toNat ≤ 9)
    (hend : continues b = true → overflows b s.itIdx.toNat = true) (bs : List Byte) :
    EqualUpToIteration (examine b s) (decodeReported (decodeBufFrom s.itIdx.toNat s.itAcc (b :: bs)) s) := by
  rw [decodeBufFrom_cons]
  rcases examine_cases b s with ⟨hover, he⟩ | ⟨hover, hcont, _⟩ | ⟨hover, hcont, hmin, he⟩ |
    ⟨hover, hcont, hmin, he⟩
  · rw [he, if_pos hover]
    rfl
  · exact absurd ((hend hcont).symm.trans hover) (by decide)
  · simp only [he, hover, hcont, hmin, if_true]
    rfl
  · simp only [he, hover, hcont, hmin, Bool.false_eq_true, if_false]
    rw [decodeReported, ← count_at_idx hi]
    rfl

/-- A DECB in progress over a buffer that begins with `bytes`, with every turn the block's. -/
structure DecbRuns (bytes : List Byte) (s : State) : Prop where
  schedule : s.schedule = []
  busy : s.busy = true
  itOp : s.itOp = opCode .decb
  idx : s.itIdx.toNat ≤ 9
  len : bytes.length ≤ s.itLen.toNat
  cap : bytes.length ≤ s.ibufCap
  written : ∀ i b, bytes[i]? = some b → s.ibuf.read i = some b

/-- The step examines the byte at it_idx. -/
theorem DecbRuns.step {bytes : List Byte} {b : Byte} {s : State} (h : DecbRuns bytes s)
    (hb : bytes[s.itIdx.toNat]? = some b) : step s = .next (examine b s) := by
  obtain ⟨hlt, _⟩ := List.getElem?_eq_some_iff.1 hb
  rw [step_of_itOp h.schedule h.busy h.itOp]
  exact execDecb_byte (hlt.trans_le h.len) (hlt.trans_le h.cap) (h.written _ b hb)

/-- DECB completes with the result of decoding the bytes `rest` from it_idx on. -/
theorem DecbRuns.completes {bytes rest : List Byte} {s : State} (h : DecbRuns bytes s)
    (hrest : bytes.drop s.itIdx.toNat = rest)
    (hunder : (decodeBufFrom s.itIdx.toNat s.itAcc rest).status = .underflow → bytes.length = s.itLen.toNat) :
    ∃ t, CompletesIn (decodeIndexFrom s.itIdx.toNat rest + 1) s t ∧
      EqualUpToIteration t (decodeReported (decodeBufFrom s.itIdx.toNat s.itAcc rest) s) := by
  induction rest generalizing s with
  | nil =>
    have hend : s.itLen.toNat ≤ s.itIdx.toNat := (hunder rfl).symm.trans_le (List.drop_eq_nil_iff.1 hrest)
    have hstep := (step_of_itOp h.schedule h.busy h.itOp).trans (execDecb_end hend)
    have hindex : decodeIndexFrom s.itIdx.toNat [] = 0 := by simp [decodeIndexFrom]
    rw [hindex]
    exact ⟨_, (CompletesIn.zero rfl).step h.busy hstep, rfl⟩
  | cons b rest ih =>
    have hstep := h.step (b := b) (by rw [← List.head?_drop, hrest]; rfl)
    by_cases hmore : overflows b s.itIdx.toNat = false ∧ continues b = true
    · obtain ⟨hover, hcont⟩ := hmore
      have hlt := lt_nine_of_continues h.idx hover hcont
      have hsucc := idx_succ_toNat h.idx
      have hbuf : decodeBufFrom s.itIdx.toNat s.itAcc (b :: rest) =
          decodeBufFrom (s.itIdx + 1#4).toNat (accumulate b s) rest := by
        rw [decodeBufFrom_cons, if_neg (Bool.eq_false_iff.1 hover), if_pos hcont, hsucc, accumulate]
      rw [examine_continuation hlt.ne ((continues_iff b).1 hcont)] at hstep
      rw [hbuf] at hunder ⊢
      have hruns : DecbRuns bytes { s with itAcc := accumulate b s, itIdx := s.itIdx + 1#4 } :=
        { h with idx := hsucc.trans_le hlt }
      obtain ⟨t, hc, heq⟩ := ih hruns (by rw [hsucc, ← List.tail_drop, hrest]; rfl) hunder
      rw [decodeIndexFrom_continues hlt hcont, ← hsucc]
      exact ⟨t, hc.step h.busy hstep, heq⟩
    · have hend : continues b = true → overflows b s.itIdx.toNat = true := by
        intro hcont
        by_contra hover
        exact hmore ⟨Bool.eq_false_iff.2 hover, hcont⟩
      have heq := examine_ends h.idx hend rest
      rw [decodeIndexFrom_ends hend]
      exact ⟨_, (CompletesIn.zero (congrArg State.busy heq)).step h.busy hstep, heq⟩

/-- Settles O30: an accepted DECB has all of the bytes ahead of it. -/
theorem decbRunMatchesDecodeBuf : Obligations.DecbRunMatchesDecodeBuf := by
  intro s bytes _ hlen hcap hwritten hunder
  rw [decodeBuf_length] at hunder ⊢
  have hstart : DecbRuns bytes (started .decb s) := by
    rw [started_eq]
    exact ⟨rfl, rfl, rfl, Nat.zero_le 9, hlen, hcap, hwritten⟩
  obtain ⟨t, hc, heq⟩ := hstart.completes (rest := bytes) (by rw [started_eq]; rfl) (by rw [started_eq]; exact hunder)
  rw [started_eq] at heq
  rw [← decodeIndexFrom_zero]
  refine ⟨t, hc, decodeIndexFrom_le 0 bytes, congrArg State.done heq, congrArg State.code heq,
    congrArg State.resVal heq, ?count, congrArg State.xfail heq, ?frame⟩
  case count =>
    have hcnt : t.resCnt = BitVec.ofNat 8 (decodeBufFrom 0 0#64 bytes).count := congrArg State.resCnt heq
    have hle := decodeBufFrom_count_le (Nat.zero_le 9) 0#64 bytes
    rw [hcnt, BitVec.toNat_ofNat, Nat.mod_eq_of_lt (by omega)]
  case frame =>
    rw [heq]
    exact ⟨rfl, rfl, rfl, rfl, rfl⟩

/-! ### A DECS whose source does not reply (spec/42_decoder.md R157) -/

/-- A DECS in progress that the replies of its source do not bring to a result. -/
structure DecsStarves (s : State) : Prop extends DecsRuns s where
  no_result : decodeAhead s s.source = none

/-- It takes a byte that continues, or holds (log entry 4). -/
theorem DecsStarves.step {s : State} (h : DecsStarves s) : ∃ t, step s = .next t ∧ DecsStarves t := by
  have hnone := h.no_result
  rw [step_of_itOp h.schedule h.busy h.itOp]
  cases hs : s.source with
  | nil => exact ⟨s, execDecs_hold hs, h⟩
  | cons reply rest =>
    rw [hs] at hnone
    cases reply with
    | endOfInput | fail => cases hnone
    | byte b =>
      rw [decodeAhead, decodeStreamFrom_byte] at hnone
      split_ifs at hnone with hover hcont
      have hlt := lt_nine_of_continues h.idx (Bool.eq_false_iff.2 hover) hcont
      have hsucc := idx_succ_toNat h.idx
      have hexamined := examine_continuation (s := { s with source := rest }) hlt.ne ((continues_iff b).1 hcont)
      refine ⟨_, (execDecs_reply hs).trans (congrArg _ hexamined), { h with idx := ?_, no_result := ?_ }⟩
      · exact hsucc.trans_le hlt
      · rw [decodeAhead, hsucc]
        exact hnone

/-- Settles O37: an accepted DECS has all of `decodeStream` ahead of it, and every step leaves it without a result. -/
theorem decsWithoutReplyNeverCompletes : Obligations.DecsWithoutReplyNeverCompletes := by
  refine ⟨fun s => execDecs_hold, fun s _ hnone k => ?_⟩
  have hstart : DecsStarves (started .decs s) := by
    rw [started_eq]
    exact ⟨⟨rfl, rfl, rfl, rfl, Nat.zero_le 9⟩, hnone⟩
  obtain ⟨u, hrun, hu⟩ := run_of_step (fun _ => DecsStarves.step) k _ hstart
  exact ⟨u, hrun, hu.busy⟩

end Sys2Proof.Machine
end

