-- ==== Sys2Proof/Proofs/HostView.lean ====
section
/-! What the host may do under a held DECS (spec/42_decoder.md R157), and that its reads do not show the iteration
state (R149, spec/10_state.md R32). -/

namespace Sys2Proof.Machine

/-! ### Under a held DECS (spec/42_decoder.md R157) -/

/-- While a DECS is held a `wait` leaves the state as it is (log entries 4 and 14). -/
theorem step_wait_held {s : State} {rest : List Turn} (hb : s.busy = true) (ho : s.itOp = opCode .decs)
    (hs : s.source = []) (h : s.schedule = .wait :: rest) : step s = .next s := by
  rw [step_wait_busy hb h, blockStep_of_itOp hb ho]
  exact execDecs_hold hs

/-- Settles O53: each access by what O4 and O6 say of it; stores are refused first, `wait` holds, reset does not. -/
theorem heldDecsAdmitsOnlyStatusAndReset : Obligations.HeldDecsAdmitsOnlyStatusAndReset := by
  intro s rest hb ho hs
  refine ⟨fun off bits v h => ?wr, fun off bits h => ⟨?status, fun hother => ?rd⟩, fun i b h => ?ibuf,
    step_wait_held hb ho hs, fun h => ?reset⟩
  case wr => exact (portRefusesExactlyBadAccesses.1 s off bits v rest h).2 (.inl hb)
  case status =>
    rintro ⟨hoff, hbits⟩
    exact ⟨_, (readReturnsRegisterAndChangesNothing s off bits rest h).1 hoff hbits, hb⟩
  case rd => exact (portRefusesExactlyBadAccesses.2 s off bits rest h).2 ⟨hother, .inl ⟨hb, ho, hs⟩⟩
  case ibuf =>
    rw [step_cons h, takeTurn_ibuf]
    exact if_pos ((awaitsReply_iff _).2 ⟨hb, ho, hs⟩)
  case reset => exact ⟨_, by rw [step_cons h, takeTurn_reset], rfl⟩

/-! ### The iteration state (spec/42_decoder.md R149, spec/10_state.md R32) -/

/-- `s` with other iteration registers. -/
def withIteration (op idx : BitVec 4) (r a l : Word) (s : State) : State :=
  { s with itOp := op, itIdx := idx, itRem := r, itAcc := a, itLen := l }

/-- An outcome with `f` done to its next state. -/
def mapNext (f : State → State) : Host.Outcome State Fault Refusal → Host.Outcome State Fault Refusal
  | .next s => .next (f s)
  | .fault r => .fault r
  | .refused r => .refused r

section
variable (op idx : BitVec 4) (r a l : Word) (s : State)

theorem readOperand_withIteration (v : Word)
    (hheld : awaitsReply (withIteration op idx r a l s) = awaitsReply s) :
    readOperand v (withIteration op idx r a l s) = mapNext (withIteration op idx r a l) (readOperand v s) := by
  rw [readOperand, readOperand, hheld]
  split <;> rfl

theorem readResult_withIteration (v : Word) :
    readResult v (withIteration op idx r a l s) = mapNext (withIteration op idx r a l) (readResult v s) := by
  cases hb : s.busy <;> simp [readResult, withIteration, mapNext, hb, seen]

theorem readObuf_withIteration (i : Nat) :
    readObuf i (withIteration op idx r a l s) = mapNext (withIteration op idx r a l) (readObuf i s) := by
  cases hb : s.busy <;> cases hr : s.obuf.read i <;> simp [readObuf, withIteration, mapNext, hb, hr, seen]

/-- A read of a register looks at the iteration state only to see whether a DECS is held, for ARG and IBUF_LEN. -/
theorem readReg_withIteration (reg : Reg)
    (hheld : reg = .arg ∨ reg = .ibufLen → awaitsReply (withIteration op idx r a l s) = awaitsReply s) :
    readReg reg (withIteration op idx r a l s) = mapNext (withIteration op idx r a l) (readReg reg s) := by
  cases reg with
  | cmd | status => rfl
  | arg => exact readOperand_withIteration op idx r a l s _ (hheld (.inl rfl))
  | ibufLen => exact readOperand_withIteration op idx r a l s _ (hheld (.inr rfl))
  | resVal | resCnt | xfail => exact readResult_withIteration op idx r a l s _
  | obuf i => exact readObuf_withIteration op idx r a l s i

/-- Whether a DECS is held depends on whether the command is DECS. -/
theorem awaitsReply_withIteration (h : s.busy = true → (op = 0x4#4 ↔ s.itOp = 0x4#4)) :
    awaitsReply (withIteration op idx r a l s) = awaitsReply s := by
  rw [Bool.eq_iff_iff, awaitsReply_iff, awaitsReply_iff]
  exact and_congr_right fun hb => and_congr_left fun _ => h hb

end

/-- With other iteration registers a host's read has its outcome with just these registers changed. -/
theorem step_rd_withIteration {s : State} {op idx : BitVec 4} {r a l : Word} {off bits : Nat} {rest : List Turn}
    (h : s.schedule = .rd off bits :: rest)
    (hop : s.busy = true → off = 0x10 ∨ off = 0x18 → (op = 0x4#4 ↔ s.itOp = 0x4#4)) :
    step (withIteration op idx r a l s) = mapNext (withIteration op idx r a l) (step s) := by
  have h' : (withIteration op idx r a l s).schedule = .rd off bits :: rest := h
  cases hreg : regAccessed off bits with
  | none => rw [step_rd_unmapped h hreg, step_rd_unmapped h' hreg]; rfl
  | some reg =>
    rw [step_rd h hreg, step_rd h' hreg]
    refine readReg_withIteration op idx r a l { s with schedule := rest } reg fun hoperand => ?_
    refine awaitsReply_withIteration op idx r a l { s with schedule := rest } fun hb => hop hb ?_
    obtain ⟨hoff, _⟩ := regAccessed_eq_some hreg
    rw [hoff]
    exact hoperand.imp (congrArg Reg.offset) (congrArg Reg.offset)

/-- Settles O51: by `step_rd_withIteration`, outcome by outcome. -/
theorem iterationStateIsInvisible : Obligations.IterationStateIsInvisible := by
  intro s op idx r a l off bits rest h hop
  have hread := step_rd_withIteration (idx := idx) (r := r) (a := a) (l := l) h hop
  exact ⟨fun t ht => hread.trans (congrArg _ ht), fun f hf => hread.trans (congrArg _ hf),
    fun f hf => hread.trans (congrArg _ hf)⟩

end Sys2Proof.Machine
end

section
/-! The idle block (spec/60_exceptions.md R196): it keeps its state, and only a legal command word ends its idleness. -/

namespace Sys2Proof.Machine

/-- A word that leaves the block busy is some command's own word: an illegal one completes at once. -/
theorem exists_encode_of_accept_busy {c : Byte} {s : State} (h : (accept c s).busy = true) : ∃ i, encode i = c := by
  rcases accept_cases c s with ⟨hillegal, _⟩ | ⟨i, hi, _⟩
  · rw [hillegal] at h
    cases h
  · exact ⟨i, encode_of_decodeCmd hi⟩

/-- A step that sets BUSY accepts a command word: reset clears it, the idle block's operation takes no step, and no other
step changes it. -/
theorem accept_of_step_sets_busy {s t : State} (h : step s = .next t) (hs : s.busy = false) (ht : t.busy = true) :
    ∃ v rest, s.schedule = .wr 0x00 8 v :: rest ∧ t = accept (v.setWidth 8) { s with schedule := rest } := by
  rcases step_cases_of_block h with ⟨v, rest, hwr, _, haccept⟩ | ⟨_, _, rfl⟩ | ⟨_, _, hb, _, _⟩ | hframe
  · exact ⟨v, rest, hwr, haccept⟩
  · cases ht
  · rw [hs] at hb
    cases hb
  · rw [hframe] at ht
    exact absurd (hs.symm.trans ht) (by decide)

/-- Settles O15: a step that sets BUSY is an acceptance, and only a command's own word leaves the block busy. -/
theorem onlyALegalCommandWakesTheBlock : Obligations.OnlyALegalCommandWakesTheBlock := by
  refine ⟨fun s hb hs => (step_nil hs).trans (blockStep_idle hb), fun s t h hs ht => ?_⟩
  obtain ⟨v, rest, hwr, rfl⟩ := accept_of_step_sets_busy h hs ht
  exact ⟨v, rest, hwr, (exists_encode_iff _).1 (exists_encode_of_accept_busy ht)⟩

end Sys2Proof.Machine
end

section
/-! A reset at any time (spec/70_reset_and_hazards.md R210), and that a running operation does not look at the operand
registers again (R212): putting other values there commutes with every step it takes. -/

namespace Sys2Proof.Machine

/-! ### Operands written after the command write (spec/70_reset_and_hazards.md R212) -/

/-- `s` with other values in ARG and IBUF_LEN. -/
def withOperands (a l : Word) (s : State) : State := { s with arg := a, ibufLen := l }

section
variable (a l : Word)

theorem examine_withOperands (b : Byte) (s : State) :
    examine b (withOperands a l s) = withOperands a l (examine b s) := by
  rw [examine, examine, apply_ite (withOperands a l), apply_ite (withOperands a l), apply_ite (withOperands a l)]
  rfl

theorem takeReply_withOperands (r : Reply) (s : State) :
    takeReply r (withOperands a l s) = withOperands a l (takeReply r s) := by
  cases r with
  | byte b => exact examine_withOperands a l b s
  | endOfInput | fail => rfl

theorem encAdvance_withOperands (s : State) :
    encAdvance (withOperands a l s) = withOperands a l (encAdvance s) := by
  rw [encAdvance, encAdvance, apply_ite (withOperands a l)]
  rfl

/-- ENC emits from it_rem, where acceptance latched ARG. -/
theorem execEnc_withOperands {s t : State} (h : execEnc s = .next t) :
    execEnc (withOperands a l s) = .next (withOperands a l t) := by
  obtain ⟨hi, rfl⟩ := execEnc_cases h
  have hadvance := encAdvance_withOperands a l { s with obuf := s.obuf.write s.itIdx.toNat (encByte s.itRem) }
  exact (execEnc_eq (s := withOperands a l s) hi).trans (congrArg _ hadvance)

/-- DECB finds the end of its buffer by it_len, where acceptance latched IBUF_LEN. -/
theorem execDecb_withOperands {s t : State} (h : execDecb s = .next t) :
    execDecb (withOperands a l s) = .next (withOperands a l t) := by
  rcases execDecb_cases h with ⟨hend, rfl⟩ | ⟨hlen, hcap, rfl⟩ | ⟨hlen, hcap, b, hb, rfl⟩
  · exact execDecb_end (s := withOperands a l s) hend
  · exact execDecb_noStep (s := withOperands a l _) hlen hcap
  · exact (execDecb_byte (s := withOperands a l s) hlen hcap hb).trans (congrArg _ (examine_withOperands a l b s))

/-- DECS takes no operand. -/
theorem execDecs_withOperands {s t : State} (h : execDecs s = .next t) :
    execDecs (withOperands a l s) = .next (withOperands a l t) := by
  rcases execDecs_cases h with ⟨hs, rfl⟩ | ⟨r, rest, hs, rfl⟩
  · exact execDecs_hold (s := withOperands a l _) hs
  · have htake := takeReply_withOperands a l r { s with source := rest }
    exact (execDecs_reply (s := withOperands a l s) hs).trans (congrArg _ htake)

end

/-- Settles O50: command by command; SIZE reads it_rem alone. -/
theorem latchedOperandsAreNotReread : Obligations.LatchedOperandsAreNotReread := by
  intro i s t a l h
  cases i with
  | size => cases h; rfl
  | enc => exact execEnc_withOperands a l h
  | decb => exact execDecb_withOperands a l h
  | decs => exact execDecs_withOperands a l h

/-! ### A reset at any time (spec/70_reset_and_hazards.md R210) -/

theorem sourceAtReset_eq_or_tail (s : State) : sourceAtReset s = s.source ∨ sourceAtReset s = s.source.tail := by
  unfold sourceAtReset
  split
  · exact .inr rfl
  · exact .inl rfl

/-- Only the pull of an abandoned DECS can have taken a reply (spec/93_implementation_defined.md U3). -/
theorem sourceAtReset_of_not_running {s : State} (h : ¬ running .decs s = true) : sourceAtReset s = s.source := by
  simp [sourceAtReset, h]

/-- Settles O2: the turn is `resetBlock`, OBUF reads by `read_obufAtReset`, and the source is `sourceAtReset`. -/
theorem resetEventAbandonsOperation : Obligations.ResetEventAbandonsOperation := by
  intro s rest h
  refine ⟨resetBlock { s with schedule := rest }, by rw [step_cons h, takeTurn_reset], rfl, rfl, rfl, rfl, rfl, rfl, rfl,
    rfl, fun hb ho i hi => ?obuf, fun _ _ => sourceAtReset_eq_or_tail { s with schedule := rest },
    fun hother => ?source, rfl, rfl, rfl, rfl, rfl⟩
  case obuf => rw [resetBlock_obuf, read_obufAtReset, if_pos ⟨(running_iff ..).2 ⟨hb, ho⟩, hi⟩]
  case source =>
    exact sourceAtReset_of_not_running (s := { s with schedule := rest }) fun hrun => hother ((running_iff ..).1 hrun)

end Sys2Proof.Machine
end
